-- ==== Sys2Proof/Word.lean ====
section
/-! DEFINITION. The words of the core: a 64-bit lane (R9), a byte, and the 25 lanes of the sponge state (R6, R21). -/

namespace Sys2Proof

/-- A lane: a 64-bit value (R9). -/
abbrev Lane := BitVec 64

/-- One byte of the input stream, of the state's byte view or of a digest. -/
abbrev Byte := BitVec 8

/-- The sponge state: 25 lanes of 64 bits, 1600 bits in all (R6, R21). -/
abbrev Lanes := Vector Lane 25

end Sys2Proof
end

