-- ==== Sys2Proof/Syntax.lean ====
section
/-! DEFINITION. The commands of the core: one constructor for each row of spec/opcode_table.json (R78), with the operands of R73,
and the pair of a command word and a data operand that the host delivers (R70). -/

namespace Sys2Proof

/-- What the host gives the core for one command: the 32-bit word `cmd` and the 64-bit operand `data` (R70, R72). -/
structure Command where
  cmd  : BitVec 32
  data : BitVec 64
  deriving DecidableEq, Repr

/-- The six commands (R78), each with its operand fields as R73 reads them. -/
inductive Instr where
  /-- `INIT size` (R130): `size = cmd[31:16]`. -/
  | init (size : BitVec 16)
  /-- `SETMODE m` (R133): `m = cmd[16]`. -/
  | setmode (m : BitVec 1)
  /-- `ABSORB len, data` (R145): `len = cmd[7:4]`, and the 64-bit data operand, which only this command reads. -/
  | absorb (len : BitVec 4) (data : BitVec 64)
  /-- `FINAL` (R163). -/
  | final
  /-- `RDBYTE idx` (R165): `idx = cmd[15:8]`, a digest byte index. -/
  | rdbyte (idx : BitVec 8)
  /-- `RDLANE idx` (R166): `idx = cmd[15:8]`, a digest lane index. -/
  | rdlane (idx : BitVec 8)
  deriving DecidableEq, Repr

end Sys2Proof
end

