-- ==== Sys2Proof/WellFormed.lean ====
section
/-! DEFINITION. Which terms of `Instr` are commands the core has: the one operand limit that the field widths do not carry is
ABSORB's `len ≤ 8` (R73, R79 point 3). -/

namespace Sys2Proof

/-- The operand checks that belong to the encoding (R73, R79): ABSORB's `len` is 0..8. INIT's size and the two read indices may
hold any value of their fields: they are checked when the command executes (R78). -/
def Instr.wellFormed : Instr → Bool
  | .init _ => true
  | .setmode _ => true
  | .absorb len _ => decide (len.toNat ≤ 8)
  | .final => true
  | .rdbyte _ => true
  | .rdlane _ => true

end Sys2Proof
end

