-- ==== Sys2Proof/Decode.lean ====
section
/-! DEFINITION. The decoder, total on every 32-bit command word (R78, R79), the encoder written from the same formats (R71, R80),
and the opcode table itself (R78). -/

namespace Sys2Proof

/-- Why a command word is illegal: the three points of R79. -/
inductive Illegal where
  /-- R79 point 1: the opcode is 0x0 or 0x7..0xF. -/
  | reservedOpcode
  /-- R79 point 2: a reserved bit of the word's format is 1. -/
  | reservedBit
  /-- R79 point 3: an ABSORB with `len` in 9..15. -/
  | lengthOver8
  deriving DecidableEq, Repr

/-- What the decoder makes of a command word. -/
inductive Decoded where
  | instr (i : Instr)
  | illegal (why : Illegal)
  deriving DecidableEq, Repr

/-! The fields of a command word (R71, R73). -/

/-- The opcode `cmd[3:0]`. -/
def opcodeField (cmd : BitVec 32) : BitVec 4 := cmd.extractLsb' 0 4
/-- `size = cmd[31:16]` of format S. -/
def sizeField (cmd : BitVec 32) : BitVec 16 := cmd.extractLsb' 16 16
/-- `m = cmd[16]` of format M. -/
def modeField (cmd : BitVec 32) : BitVec 1 := cmd.extractLsb' 16 1
/-- `len = cmd[7:4]` of format L. -/
def lenField (cmd : BitVec 32) : BitVec 4 := cmd.extractLsb' 4 4
/-- `idx = cmd[15:8]` of format X. -/
def idxField (cmd : BitVec 32) : BitVec 8 := cmd.extractLsb' 8 8

/-! The reserved bits of each format, all of them zero (R71). -/

/-- Format S: `cmd[15:4] = 0`. -/
def reservedClearS (cmd : BitVec 32) : Bool := cmd.extractLsb' 4 12 == 0#12
/-- Format M: `cmd[31:17] = 0` and `cmd[15:4] = 0`. -/
def reservedClearM (cmd : BitVec 32) : Bool := cmd.extractLsb' 17 15 == 0#15 && cmd.extractLsb' 4 12 == 0#12
/-- Format L: `cmd[31:8] = 0`. -/
def reservedClearL (cmd : BitVec 32) : Bool := cmd.extractLsb' 8 24 == 0#24
/-- Format N: `cmd[31:4] = 0`. -/
def reservedClearN (cmd : BitVec 32) : Bool := cmd.extractLsb' 4 28 == 0#28
/-- Format X: `cmd[31:16] = 0` and `cmd[7:4] = 0`. -/
def reservedClearX (cmd : BitVec 32) : Bool := cmd.extractLsb' 16 16 == 0#16 && cmd.extractLsb' 4 4 == 0#4

/-- The decoder of R79. Whether a word is illegal depends on `cmd` alone; `data` only becomes ABSORB's operand (R72). -/
def decode (cmd : BitVec 32) (data : BitVec 64) : Decoded :=
  match (opcodeField cmd).toNat with
  | 0x1 => if reservedClearS cmd then .instr (.init (sizeField cmd)) else .illegal .reservedBit
  | 0x2 => if reservedClearM cmd then .instr (.setmode (modeField cmd)) else .illegal .reservedBit
  | 0x3 =>
    if reservedClearL cmd then
      if (lenField cmd).toNat ≤ 8 then .instr (.absorb (lenField cmd) data) else .illegal .lengthOver8
    else .illegal .reservedBit
  | 0x4 => if reservedClearN cmd then .instr .final else .illegal .reservedBit
  | 0x5 => if reservedClearX cmd then .instr (.rdbyte (idxField cmd)) else .illegal .reservedBit
  | 0x6 => if reservedClearX cmd then .instr (.rdlane (idxField cmd)) else .illegal .reservedBit
  | _ => .illegal .reservedOpcode

/-- R79, with each format's reserved bits as a mask of the word: the words the decoder must reject. -/
def IllegalWord (cmd : BitVec 32) : Prop :=
  match (opcodeField cmd).toNat with
  | 0x1 => cmd &&& 0x0000FFF0#32 ≠ 0#32
  | 0x2 => cmd &&& 0xFFFEFFF0#32 ≠ 0#32
  | 0x3 => cmd &&& 0xFFFFFF00#32 ≠ 0#32 ∨ 9 ≤ (lenField cmd).toNat
  | 0x4 => cmd &&& 0xFFFFFFF0#32 ≠ 0#32
  | 0x5 => cmd &&& 0xFFFF00F0#32 ≠ 0#32
  | 0x6 => cmd &&& 0xFFFF00F0#32 ≠ 0#32
  | _ => True

/-- The encoder, from the encodings of R80. Commands other than ABSORB carry a data operand that nothing reads (R72, D25): 0. -/
def encode : Instr → Command
  | .init size => ⟨size.zeroExtend 32 <<< 16 ||| 0x1#32, 0⟩
  | .setmode m => ⟨m.zeroExtend 32 <<< 16 ||| 0x2#32, 0⟩
  | .absorb len data => ⟨len.zeroExtend 32 <<< 4 ||| 0x3#32, data⟩
  | .final => ⟨0x4#32, 0⟩
  | .rdbyte idx => ⟨idx.zeroExtend 32 <<< 8 ||| 0x5#32, 0⟩
  | .rdlane idx => ⟨idx.zeroExtend 32 <<< 8 ||| 0x6#32, 0⟩

/-! The opcode table (R78). -/

/-- One row of the table of R78: a word selects the row when `cmd & mask = pattern`, and `extra` holds of it. -/
structure OpcodeRow where
  mnemonic : String
  mask     : BitVec 32
  pattern  : BitVec 32
  /-- The largest `len` field the row takes, for ABSORB alone: the table's extra decode condition. -/
  maxLen   : Option Nat
  deriving DecidableEq, Repr

/-- The rows of R78, in the table's order. -/
def opcodeTable : List OpcodeRow :=
  [ ⟨"INIT",    0x0000FFFF#32, 0x00000001#32, none⟩,
    ⟨"SETMODE", 0xFFFEFFFF#32, 0x00000002#32, none⟩,
    ⟨"ABSORB",  0xFFFFFF0F#32, 0x00000003#32, some 8⟩,
    ⟨"FINAL",   0xFFFFFFFF#32, 0x00000004#32, none⟩,
    ⟨"RDBYTE",  0xFFFF00FF#32, 0x00000005#32, none⟩,
    ⟨"RDLANE",  0xFFFF00FF#32, 0x00000006#32, none⟩ ]

/-- R78: "A word selects a command when `(cmd & mask) = match` and the extra decode condition holds." -/
def OpcodeRow.selects (row : OpcodeRow) (cmd : BitVec 32) : Bool :=
  cmd &&& row.mask == row.pattern &&
    match row.maxLen with
    | none => true
    | some k => decide ((lenField cmd).toNat ≤ k)

/-- The mnemonic of a command, as the table spells it. -/
def Instr.mnemonic : Instr → String
  | .init _ => "INIT"
  | .setmode _ => "SETMODE"
  | .absorb _ _ => "ABSORB"
  | .final => "FINAL"
  | .rdbyte _ => "RDBYTE"
  | .rdlane _ => "RDLANE"

/-- A command given as one number in the numbering of spec/opcode_table.json: the command word is bits 31..0 and the data operand
follows it, bits 95..32. Bits from `nbits` on are 0. -/
def tableCommand (nbits w : Nat) : Command :=
  ⟨BitVec.ofNat 32 (w % 2 ^ nbits), BitVec.ofNat 64 (w % 2 ^ nbits / 2 ^ 32)⟩

/-- The instruction the decoder reads from such a number, if it is one. -/
def decodeTableWord (nbits w : Nat) : Option Instr :=
  match decode (tableCommand nbits w).cmd (tableCommand nbits w).data with
  | .instr i => some i
  | .illegal _ => none

end Sys2Proof
end

