-- ==== Sys2Proof/Config.lean ====
section
/-! DEFINITION. What the spec leaves open: the build parameters no rule reads (D19, D23, D27), and the free values that the
registers hold after a reset (R35, D14, I1). Every constant here is opaque, so no proof can see a value of it. -/

namespace Sys2Proof

/-- `N_CORES`: how many core instances a platform has (R38, R211; D23, left open). -/
opaque Config.nCores : Nat

/-- `PERM_LATENCY`: the cycles a command takes (R239; D19, left open). The model has no time and nothing reads it. -/
opaque Config.permLatency : Nat

/-- `CORE_BASE`: where a platform places the command interface (R59; D27, left open). Nothing reads it. -/
opaque Config.coreBase : Nat

/-- Lane `i` after reset number `n`: unspecified, a free draw (R35, log entry 1). -/
opaque Config.resetLane (n i : Nat) : Lane

/-- `saved` after reset number `n`: unspecified, a free draw (R35, log entry 1). -/
opaque Config.resetSaved (n : Nat) : Lane

/-- `byteIndex` after reset number `n`: unspecified, a free draw (R35, log entry 1). -/
opaque Config.resetByteIndex (n : Nat) : BitVec 3

/-- `wordIndex` after reset number `n`: unspecified, a free draw (R35, log entry 1). -/
opaque Config.resetWordIndex (n : Nat) : BitVec 5

/-- `capacityWords` after reset number `n`: unspecified, a free draw (R35, log entry 1). -/
opaque Config.resetCapacityWords (n : Nat) : BitVec 5

/-- `MODE` after reset number `n`: unspecified, a free draw of 0 or 1 (R35, I3, log entry 1). -/
opaque Config.resetMode (n : Nat) : BitVec 1

end Sys2Proof
end

