-- ==== Sys2Proof/Machine/State.lean ====
section
/-! DEFINITION. The state of the core (R20), the command interface it stands behind (R70), the reasons a step can stop, and the
state after reset (R35, R230). -/

namespace Sys2Proof.Machine

/-- `PHASE`, the lifecycle of the context (R30). Value 3 is never held, so it is no constructor. -/
inductive Phase where
  /-- 0: no context; entered by reset. -/
  | uninit
  /-- 1: entered by a successful INIT. -/
  | absorbing
  /-- 2: entered by FINAL. -/
  | finalized
  deriving DecidableEq, Repr

/-- The status of a response (R75). -/
inductive Status where
  | ok
  | configError
  | usageError
  | illegalCommand
  deriving DecidableEq, Repr

/-- The response `(status, err, rdata)` to one command (R70). -/
structure Response where
  status : Status
  err    : BitVec 1
  rdata  : BitVec 64
  deriving DecidableEq, Repr

/-- What can reach the core from outside: a command, with the host agent that issues it (R62, R70), or a reset (R230). -/
inductive Input where
  | command (host : Nat) (c : Command)
  | reset
  deriving DecidableEq, Repr

/-- The state: the registers of R20, then the command interface of R70 and two fields that are the model's own. -/
structure State where
  /-- The sponge state lanes `A[0..24]` (R20, R21). -/
  A : Lanes
  /-- The partial input word (R20, R23). -/
  saved : BitVec 64
  /-- How many bytes `saved` holds (R20, R24). -/
  byteIndex : BitVec 3
  /-- The next lane to receive input (R20, R25). -/
  wordIndex : BitVec 5
  /-- The configured capacity in lanes (R20, R27). -/
  capacityWords : BitVec 5
  /-- `MODE`: 0 is NIST SHA-3, 1 is raw Keccak (R20, R28). -/
  mode : BitVec 1
  /-- `PHASE` (R20, R30). -/
  phase : Phase
  /-- `ERR`, the sticky error flag (R20, R31). -/
  err : BitVec 1
  /-- The response to the latest command; none since a reset before the first command (R70; log entry 3). -/
  resp : Option Response
  /-- What the host side has yet to deliver, first to come first (R60, R70; log entry 2). -/
  pending : List Input
  /-- The one host that issues to this core, once its first command has come (R62; log entry 4). -/
  host : Option Nat
  /-- How many resets the core has had since the model's start: it numbers the free draws of R35 (log entry 1). -/
  draws : Nat
  deriving DecidableEq, Repr

/-- The reasons for which a step stops with a fault. The spec's own errors are responses, not stops (R203, R208). -/
inductive Fault where
  /-- A lane number outside 0..24 (R10). Raised by ABSORB and FINAL, only in states that no run reaches: `PHASE = ABSORBING`
  with `wordIndex ≥ 25` or `rateWords ≤ 0`, against R25 and R27. Safe: the machine stops. -/
  | noSuchLane (index : Int)
  deriving DecidableEq, Repr

/-- The reasons for which the model refuses a step. -/
inductive Refusal where
  /-- An instruction without a meaning, refused by its mnemonic in `exec`. No arm raises it: all six have their meaning. Safe. -/
  | notModelled (mnemonic : String)
  /-- A command from a second host agent on one core (R62, I5: "refused by name"). Raised by `step`. Safe: the machine stops. -/
  | secondHost (host : Nat)
  deriving DecidableEq, Repr

/-- The core right after reset number `n` (R35, R230): `PHASE` and `ERR` as the spec says, every other register a free draw. -/
def State.drawn (n : Nat) : State where
  A := Vector.ofFn fun i : Fin 25 => Config.resetLane n i.val
  saved := Config.resetSaved n
  byteIndex := Config.resetByteIndex n
  wordIndex := Config.resetWordIndex n
  capacityWords := Config.resetCapacityWords n
  mode := Config.resetMode n
  phase := .uninit
  err := 0#1
  resp := none
  pending := []
  host := none
  draws := n

/-- The machine right after reset (R35, R230), with nothing yet issued to it. -/
def State.reset : State := State.drawn 0

end Sys2Proof.Machine
end

