-- ==== Sys2Proof/Machine/Operands.lean ====
section
/-! DEFINITION. Operand assembly and the byte views: the input bytes of ABSORB's data operand (R55, R73), little-endian packing
(R10, R51), reading a lane and a byte of the sponge state (R10, R50), and the quantities derived from `capacityWords` (R27). -/

namespace Sys2Proof.Machine

/-- `zext_64` of a byte (R9). -/
def zextByte (b : Byte) : BitVec 64 := b.zeroExtend 64

/-- `zext_64` of a bit (R9), for SETMODE's previous mode (R77). -/
def zextBit (b : BitVec 1) : BitVec 64 := b.zeroExtend 64

/-- Byte `j` of a 64-bit value, `v[8j+7:8j]` (R50, R55). -/
def byteOf (v : BitVec 64) (j : Nat) : Byte := v.extractLsb' (8 * j) 8

/-- The input bytes of an ABSORB, in order: byte `i` is `data[8i+7:8i]` for `0 ≤ i < len` (R55, R73). -/
def inputBytes (len : Nat) (data : BitVec 64) : List Byte := (List.range len).map (byteOf data)

/-- `pack_le`: byte 0 of the sequence in bits 7..0, and so on up (R10, R51). -/
def packLe : List Byte → BitVec 64
  | [] => 0
  | b :: bs => zextByte b ||| packLe bs <<< 8

/-- `A[i]` (R10). The core has lanes 0..24 only; whoever computes an index that may lie outside checks it first. -/
def lane (A : Lanes) (i : Nat) : Lane := A.toList.getD i 0

/-- `A[i] <- v` (R10), under the same condition on `i`. -/
def setLane (A : Lanes) (i : Nat) (v : Lane) : Lanes := A.setIfInBounds i v

/-- `StateByte(k)` (R10, R50): byte `k mod 8` of lane `k div 8`. -/
def stateByte (A : Lanes) (k : Nat) : Byte := byteOf (lane A (k / 8)) (k % 8)

/-- The output sizes the core takes, in bits (R6, R7). -/
def outputSizes : List Nat := [256, 384, 512]

/-- Whether INIT takes this size (R130, R200). -/
def supportedSize (size : BitVec 16) : Bool := outputSizes.contains size.toNat

/-- `capacityWords = 2 * size / 64` (R27, R130). -/
def capacityFor (size : BitVec 16) : BitVec 5 := BitVec.ofNat 5 (2 * size.toNat / 64)

/-- `rateWords = 25 − capacityWords` (R27). -/
def State.rateWords (s : State) : Nat := 25 - s.capacityWords.toNat

/-- `outputBits = 32 * capacityWords` (R27). -/
def State.outputBits (s : State) : Nat := 32 * s.capacityWords.toNat

end Sys2Proof.Machine
end

