-- ==== Sys2Proof/Machine/Flags.lean ====
section
/-! DEFINITION. The status and lifecycle flags: the status codes (R75), which errors set the sticky `ERR` (R31, R203), and the
lifecycle table of R30. -/

namespace Sys2Proof.Machine

/-- The 2-bit code of a status (R75). -/
def Status.code : Status → BitVec 2
  | .ok => 0
  | .configError => 1
  | .usageError => 2
  | .illegalCommand => 3

/-- The 2-bit value of `PHASE` (R30). -/
def Phase.code : Phase → BitVec 2
  | .uninit => 0
  | .absorbing => 1
  | .finalized => 2

/-- Whether a command that ends in this status sets `ERR` (R31, R203): USAGE_ERROR and ILLEGAL_COMMAND do, nothing else does. -/
def Status.setsErr : Status → Bool
  | .ok => false
  | .configError => false
  | .usageError => true
  | .illegalCommand => true

/-- `ERR` after a command that ends in this status, from `ERR` before it (R31). -/
def errAfter (st : Status) (err : BitVec 1) : BitVec 1 := if st.setsErr then 1#1 else err

/-- The lifecycle table of R30: which commands a phase accepts. -/
def Phase.accepts : Phase → Instr → Bool
  | _, .init _ => true
  | _, .setmode _ => true
  | .absorbing, .absorb _ _ => true
  | .absorbing, .final => true
  | .finalized, .rdbyte _ => true
  | .finalized, .rdlane _ => true
  | .uninit, .absorb _ _ => false
  | .uninit, .final => false
  | .uninit, .rdbyte _ => false
  | .uninit, .rdlane _ => false
  | .absorbing, .rdbyte _ => false
  | .absorbing, .rdlane _ => false
  | .finalized, .absorb _ _ => false
  | .finalized, .final => false

end Sys2Proof.Machine
end

