-- ==== Sys2Proof/Machine/Permutation.lean ====
section
/-! DEFINITION. The Keccak-f[1600] permutation engine (R100 to R109): theta, the single-pass rho/pi with its two tables, chi, iota
with the round constants, the 24 rounds, and the per-lane form of rho/pi (R106). -/

namespace Sys2Proof.Machine

/-- `rotl64(x, n)` for `0 ≤ n ≤ 63` (R9). -/
def rotl64 (x : Lane) (n : Nat) : Lane := x <<< n ||| x >>> (64 - n)

/-! ## Theta (R102) -/

/-- `C[x]`: the parity of the five lanes of column `x` (R12, R102). -/
def columnParity (A : Lanes) (x : Nat) : Lane :=
  lane A x ^^^ lane A (x + 5) ^^^ lane A (x + 10) ^^^ lane A (x + 15) ^^^ lane A (x + 20)

/-- What theta XORs into every lane of column `x`: `C[x−1] ^ rotl64(C[x+1], 1)`, indices mod 5 (R102). -/
def thetaMix (A : Lanes) (x : Nat) : Lane :=
  columnParity A ((x + 4) % 5) ^^^ rotl64 (columnParity A ((x + 1) % 5)) 1

/-- Theta (R102). -/
def theta (A : Lanes) : Lanes := Vector.ofFn fun i : Fin 25 => lane A i.val ^^^ thetaMix A (i.val % 5)

/-! ## Rho and pi (R103 to R106) -/

/-- `ROTC[0..23]` (R104). -/
def rotc : List Nat :=
  [1, 3, 6, 10, 15, 21, 28, 36, 45, 55, 2, 14, 27, 41, 56, 8, 25, 43, 62, 18, 39, 61, 20, 44]

/-- `PILN[0..23]` (R105). -/
def piln : List Nat :=
  [10, 7, 11, 17, 18, 3, 5, 16, 8, 21, 24, 4, 15, 23, 19, 13, 12, 2, 20, 14, 22, 9, 6, 1]

/-- The steps of the single pass (R103), each a pair `(PILN[j], ROTC[j])`, from scratch lane `t`: each step reads its lane before
it overwrites it. -/
def rhoPiSteps : List (Nat × Nat) → Lane → Lanes → Lanes
  | [], _, A => A
  | (k, r) :: rest, t, A => rhoPiSteps rest (lane A k) (setLane A k (rotl64 t r))

/-- Rho and pi as one pass (R103), the scratch lane starting as `A[1]`. -/
def rhoPi (A : Lanes) : Lanes := rhoPiSteps (piln.zip rotc) (lane A 1) A

/-- The per-lane table of R106, `(s, dest(s), rho(s))` for `s = 1..24`. -/
def perLaneTable : List (Nat × Nat × Nat) :=
  [(1, 10, 1), (2, 20, 62), (3, 5, 28), (4, 15, 27), (5, 16, 36), (6, 1, 44), (7, 11, 6), (8, 21, 55)] ++
  [(9, 6, 20), (10, 7, 3), (11, 17, 10), (12, 2, 43), (13, 12, 25), (14, 22, 39), (15, 23, 41), (16, 8, 45)] ++
  [(17, 18, 15), (18, 3, 21), (19, 13, 8), (20, 14, 18), (21, 24, 2), (22, 9, 61), (23, 19, 56), (24, 4, 14)]

/-! ## Chi (R107) -/

/-- Chi (R107): every lane of a row from the row's values before chi; lane `i` is column `i mod 5` of row `i div 5` (R12). -/
def chi (A : Lanes) : Lanes :=
  Vector.ofFn fun i : Fin 25 =>
    lane A i.val ^^^
      (~~~ lane A ((i.val % 5 + 1) % 5 + 5 * (i.val / 5)) &&& lane A ((i.val % 5 + 2) % 5 + 5 * (i.val / 5)))

/-! ## Iota and the round constants (R108, R109) -/

/-- `RC[0..23]` (R109). -/
def roundConstants : List Lane :=
  [0x0000000000000001, 0x0000000000008082, 0x800000000000808A, 0x8000000080008000] ++
  [0x000000000000808B, 0x0000000080000001, 0x8000000080008081, 0x8000000000008009] ++
  [0x000000000000008A, 0x0000000000000088, 0x0000000080008009, 0x000000008000000A] ++
  [0x000000008000808B, 0x800000000000008B, 0x8000000000008089, 0x8000000000008003] ++
  [0x8000000000008002, 0x8000000000000080, 0x000000000000800A, 0x800000008000000A] ++
  [0x8000000080008081, 0x8000000000008080, 0x0000000080000001, 0x8000000080008008]

/-- Iota with the round's constant: lane 0 only (R108). -/
def iota (A : Lanes) (rc : Lane) : Lanes := setLane A 0 (lane A 0 ^^^ rc)

/-! ## The permutation (R100, R101) -/

/-- One round (R101): theta, rho/pi, chi, iota. -/
def keccakRound (A : Lanes) (rc : Lane) : Lanes := iota (chi (rhoPi (theta A))) rc

/-- `Keccak_f`: the 24 rounds in order, one for each round constant (R100, R101). Irreducible, so that a proof about the core does
not run into the rounds unasked; `unfold keccakF` opens it, and the kernel evaluates it. -/
@[irreducible] def keccakF (A : Lanes) : Lanes := roundConstants.foldl keccakRound A

end Sys2Proof.Machine
end

