-- ==== Sys2Proof/Machine/Ops.lean ====
section
/-! DEFINITION. The shared operations over the core's state: ending a command with a response (R70, R77), raising an error (R203),
XORing a word into a lane (R140), advancing the lane pointer with the block-boundary trigger (R142), the fresh context (R36), and
the command interface (R60, R62, R70, R230). -/

namespace Sys2Proof.Machine

/-! ## Responses and errors -/

/-- `respond(status, rdata)`: the response carries `ERR` as it stands after the command (R70, R76). -/
def respond (st : Status) (rdata : BitVec 64) (s : State) : State :=
  { s with resp := some ⟨st, s.err, rdata⟩ }

/-- The three errors a command can raise (R200 to R202). -/
inductive CommandError where
  | configError
  | usageError
  | illegalCommand
  deriving DecidableEq, Repr

/-- The status that reports an error (R75). -/
def CommandError.status : CommandError → Status
  | .configError => .configError
  | .usageError => .usageError
  | .illegalCommand => .illegalCommand

/-- `raise E` (R203): `ERR <- 1` for USAGE_ERROR and ILLEGAL_COMMAND, then the response `(code(E), ERR, 0)`; nothing else is
written. This is all the core has of an exception entry, and there is no return (R208). -/
def raise (e : CommandError) (s : State) : State :=
  respond e.status 0 { s with err := errAfter e.status s.err }

/-! ## The sponge state and the absorption buffer -/

/-- The context right after a successful INIT (R36): all state zero, the capacity configured, `MODE` 0, `PHASE` ABSORBING. `ERR`
is not written. -/
def freshContext (size : BitVec 16) (s : State) : State :=
  { s with
    A := Vector.replicate 25 0
    saved := 0
    byteIndex := 0
    wordIndex := 0
    capacityWords := capacityFor size
    mode := 0
    phase := .absorbing }

/-- `A[i] <- A[i] ^ w` (R140, R161). -/
def xorLane (i : Nat) (w : Lane) (s : State) : State := { s with A := setLane s.A i (lane s.A i ^^^ w) }

/-- `saved <- 0` and `byteIndex <- 0` (R141 step 2). -/
def clearBuffer (s : State) : State := { s with saved := 0, byteIndex := 0 }

/-- `A <- Keccak_f(A)` (R100, R111). -/
def permute (s : State) : State := { s with A := keccakF s.A }

/-- `PHASE <- p` (R30, R163). -/
def setPhase (p : Phase) (s : State) : State := { s with phase := p }

/-- `MODE <- m` (R28, R133). -/
def setMode (m : BitVec 1) (s : State) : State := { s with mode := m }

/-- `wordIndex <- i` (R142). -/
def setWordIndex (i : BitVec 5) (s : State) : State := { s with wordIndex := i }

/-- The advance after a rate XOR (R142): when `wordIndex` reaches `rateWords`, the permutation runs at once and `wordIndex`
returns to 0. -/
def advance (s : State) : State :=
  if s.wordIndex.toNat + 1 = s.rateWords then setWordIndex 0 (permute s)
  else setWordIndex (s.wordIndex + 1) s

/-- One byte into the partial word (R141): OR-ed in at position `8 * byteIndex`, then `byteIndex` increments. It is 8 only within
a command (R24), where the 3-bit register wraps and is written 0 in the same step. -/
def bufferByte (b : Byte) (s : State) : State :=
  { s with saved := s.saved ||| zextByte b <<< (8 * s.byteIndex.toNat), byteIndex := s.byteIndex + 1 }

/-- Bytes into the partial word, in order: the loops of R141. -/
def bufferBytes : List Byte → State → State
  | [], s => s
  | b :: bs, s => bufferBytes bs (bufferByte b s)

/-! ## The command interface -/

/-- Whether the core takes a command from this host agent: exactly one host issues to a core (R62). -/
def admitsHost (h : Nat) (s : State) : Bool :=
  match s.host with
  | none => true
  | some k => k == h

/-- The host side of the interface: what remains to be delivered, and which host drives the core (log entries 2 and 4). -/
def setHostSide (rest : List Input) (h : Option Nat) (s : State) : State := { s with pending := rest, host := h }

/-- The core takes its next command from host `h`: what remains to be delivered stays, and the core's host is known (R60, R62). -/
def takeCommand (h : Nat) (rest : List Input) (s : State) : State := setHostSide rest (some h) s

/-- A reset between two commands (R230): the next free draw of R35. What the host side has yet to deliver, and which host drives
the core, are no registers of the core and stay (log entries 2 and 4). -/
def takeReset (rest : List Input) (s : State) : State := setHostSide rest s.host (State.drawn (s.draws + 1))

end Sys2Proof.Machine
end

