-- ==== Sys2Proof/Machine/Absorb.lean ====
section
/-! DEFINITION. Absorption: the algorithm of R141, its byte-serial form (R143) and the ABSORB command (R145). -/

namespace Sys2Proof.Machine

/-- The bytes that complete the word in flight, `(8 − byteIndex) mod 8` (R141). -/
def need (s : State) : Nat := (8 - s.byteIndex.toNat) % 8

/-- A complete word into the rate, then the advance (R140, R142). -/
def absorbWord (w : Lane) (s : State) : State := advance (xorLane s.wordIndex.toNat w s)

/-- The end of step 2 of R141: `saved` into the rate, the buffer emptied, then the advance. -/
def completeWord (s : State) : State :=
  advance (clearBuffer (xorLane s.wordIndex.toNat s.saved s))

/-- Step 3 of R141 for `k` whole words, packed little-endian, and step 4 for what remains. -/
def absorbWords : Nat → List Byte → State → State
  | 0, X, s => bufferBytes X s
  | k + 1, X, s => absorbWords k (X.drop 8) (absorbWord (packLe (X.take 8)) s)

/-- `absorb(X)` (R141). Step 2 runs only when a word is in flight (90_conflicts.md C4). -/
def absorb (X : List Byte) (s : State) : State :=
  if X.length < need s then bufferBytes X s
  else
    let rest := X.drop (need s)
    let s' := if s.byteIndex ≠ 0 then completeWord (bufferBytes (X.take (need s)) s) else s
    absorbWords (rest.length / 8) rest s'

/-- `absorb_byte(b)` (R143). -/
def absorbByte (b : Byte) (s : State) : State :=
  if s.byteIndex.toNat + 1 = 8 then completeWord (bufferByte b s) else bufferByte b s

/-- `absorb(X)` in the byte-serial form (R143). -/
def absorbSerial (X : List Byte) (s : State) : State := X.foldl (fun s b => absorbByte b s) s

/-- Whether `n` more bytes complete the word in flight (R141): then, and only then, a lane is written. -/
def completesWord (n : Nat) (s : State) : Bool := decide (8 ≤ s.byteIndex.toNat + n)

/-- `ABSORB len, data` (R145). `len > 8` is ILLEGAL_COMMAND before anything else (R79, R205). The fault is met in no state a run
reaches: by R25 `wordIndex < rateWords ≤ 25`. -/
def execAbsorb (len : BitVec 4) (data : BitVec 64) (s : State) : Host.Outcome State Fault Refusal :=
  if 8 < len.toNat then .next (raise .illegalCommand s)
  else if s.phase ≠ .absorbing then .next (raise .usageError s)
  else if completesWord len.toNat s && decide (25 ≤ s.wordIndex.toNat) then .fault (.noSuchLane s.wordIndex.toNat)
  else .next (respond .ok 0 (absorb (inputBytes len.toNat data) s))

end Sys2Proof.Machine
end

