-- ==== Sys2Proof/Machine/Configuration.lean ====
section
/-! DEFINITION. The configuration commands INIT and SETMODE (R130 to R133). -/

namespace Sys2Proof.Machine

/-- `INIT size` (R130, R131): legal in every phase; an unsupported size is a CONFIG_ERROR and writes nothing (R200). -/
def execInit (size : BitVec 16) (s : State) : Host.Outcome State Fault Refusal :=
  if supportedSize size then .next (respond .ok 0 (freshContext size s))
  else .next (raise .configError s)

/-- `SETMODE m` (R133): legal in every phase; the response carries the previous mode. -/
def execSetmode (m : BitVec 1) (s : State) : Host.Outcome State Fault Refusal :=
  .next (respond .ok (zextBit s.mode) (setMode m s))

end Sys2Proof.Machine
end

