-- ==== Sys2Proof/Machine/Squeeze.lean ====
section
/-! DEFINITION. Padding and squeeze: the padding word (R160), finalize (R161), and the commands FINAL, RDBYTE and RDLANE (R163,
R165, R166). -/

namespace Sys2Proof.Machine

/-- The padding word `t` (R160): the byte 0x01 (raw Keccak) or 0x06 (NIST SHA-3) at the position after the last buffered byte. -/
def paddingWord (mode : BitVec 1) (byteIndex : BitVec 3) : BitVec 64 :=
  (if mode = 1 then 0x01#64 else 0x06#64) <<< (8 * byteIndex.toNat)

/-- The last bit of the rate, bit 63 of its last lane: the final 1 of pad10*1 (R161). -/
def lastRateBit : BitVec 64 := 0x8000000000000000#64

/-- `finalize()` (R161). Step 3 XORs the bit and does not force it (90_conflicts.md C2). -/
def finalize (s : State) : State :=
  let padded := xorLane s.wordIndex.toNat (s.saved ^^^ paddingWord s.mode s.byteIndex) s
  permute (xorLane (s.rateWords - 1) lastRateBit padded)

/-- `FINAL` (R163). The two faults are met in no state a run reaches: by R25 and R27 both lanes exist. -/
def execFinal (s : State) : Host.Outcome State Fault Refusal :=
  if s.phase ≠ .absorbing then .next (raise .usageError s)
  else if 25 ≤ s.wordIndex.toNat then .fault (.noSuchLane s.wordIndex.toNat)
  else if 25 ≤ s.capacityWords.toNat then .fault (.noSuchLane (25 - (s.capacityWords.toNat : Int) - 1))
  else .next (respond .ok 0 (setPhase .finalized (finalize s)))

/-- `RDBYTE idx` (R165): the digest has `outputBits / 8` bytes, and only they are readable (R162). -/
def execRdbyte (idx : BitVec 8) (s : State) : Host.Outcome State Fault Refusal :=
  if s.phase ≠ .finalized ∨ s.outputBits / 8 ≤ idx.toNat then .next (raise .usageError s)
  else .next (respond .ok (zextByte (stateByte s.A idx.toNat)) s)

/-- `RDLANE idx` (R166): the digest has `outputBits / 64` lanes. -/
def execRdlane (idx : BitVec 8) (s : State) : Host.Outcome State Fault Refusal :=
  if s.phase ≠ .finalized ∨ s.outputBits / 64 ≤ idx.toNat then .next (raise .usageError s)
  else .next (respond .ok (lane s.A idx.toNat) s)

end Sys2Proof.Machine
end

