-- ==== Sys2Proof/Machine/Dispatch.lean ====
section
/-! DEFINITION. One arm for each command: its meaning. -/

namespace Sys2Proof.Machine

def exec (i : Instr) (s : State) : Host.Outcome State Fault Refusal :=
  match i with
  | .init size => Sys2Proof.Machine.execInit size s
  | .setmode m => Sys2Proof.Machine.execSetmode m s
  | .absorb len data => Sys2Proof.Machine.execAbsorb len data s
  | .final => Sys2Proof.Machine.execFinal s
  | .rdbyte idx => Sys2Proof.Machine.execRdbyte idx s
  | .rdlane idx => Sys2Proof.Machine.execRdlane idx s

end Sys2Proof.Machine
end

