-- ==== Sys2Proof/Machine/Step.lean ====
section
/-! DEFINITION. One step: the next input of the core's host side is taken and runs to completion (R60, R70). -/

namespace Sys2Proof.Machine

/-- One step (R60, R70): with nothing delivered the core waits. A reset puts it in its reset state (R230). A command from the
core's host is decoded and executed, a word that names no command ends in ILLEGAL_COMMAND (R202), and a second host's command is
refused by name (R62). -/
def step (s : State) : Host.Outcome State Fault Refusal :=
  match s.pending with
  | [] => .next s
  | .reset :: rest => .next (takeReset rest s)
  | .command h c :: rest =>
    if admitsHost h s then
      match decode c.cmd c.data with
      | .instr i => exec i (takeCommand h rest s)
      | .illegal _ => .next (raise .illegalCommand (takeCommand h rest s))
    else .refused (.secondHost h)

/-- `s` with a command, numbered as spec/opcode_table.json numbers its bits, delivered next, by the core's own host. -/
def State.withFetchWord (s : State) (nbits w : Nat) : State :=
  { s with pending := .command (s.host.getD 0) (tableCommand nbits w) :: s.pending }

end Sys2Proof.Machine
end

