-- ==== Sys2Proof/Machine/Driver.lean ====
section
/-! DEFINITION. The host side of the command interface: the assembler lines of R80, delivering commands and collecting their
responses (R70), and the pseudo-instructions ABSORBN (R81) and HASH (R82). None of it is a command of the core. -/

namespace Sys2Proof.Machine

/-! ## Assembler lines (R80) -/

/-- One line of the spec's assembler (R80). -/
inductive AsmLine where
  | init (size : Nat)
  | setmodeSha3
  | setmodeKeccak
  | absorb (len : Nat) (data : BitVec 64)
  | absorbString (bytes : List Byte)
  | final
  | rdbyte (idx : Nat)
  | rdlane (idx : Nat)
  deriving DecidableEq, Repr

/-- The command a line assembles to (R80); none where an operand does not fit its field, or a string is longer than 8 bytes. -/
def assemble : AsmLine → Option Command
  | .init size => if size < 2 ^ 16 then some ⟨BitVec.ofNat 32 (size <<< 16 ||| 0x1), 0⟩ else none
  | .setmodeSha3 => some ⟨0x00000002#32, 0⟩
  | .setmodeKeccak => some ⟨0x00010002#32, 0⟩
  | .absorb len data => if len < 2 ^ 4 then some ⟨BitVec.ofNat 32 (len <<< 4 ||| 0x3), data⟩ else none
  | .absorbString bytes =>
    if bytes.length ≤ 8 then some ⟨BitVec.ofNat 32 (bytes.length <<< 4 ||| 0x3), packLe bytes⟩ else none
  | .final => some ⟨0x00000004#32, 0⟩
  | .rdbyte idx => if idx < 2 ^ 8 then some ⟨BitVec.ofNat 32 (idx <<< 8 ||| 0x5), 0⟩ else none
  | .rdlane idx => if idx < 2 ^ 8 then some ⟨BitVec.ofNat 32 (idx <<< 8 ||| 0x6), 0⟩ else none

/-! ## Delivering commands -/

/-- What follows an outcome, where it is a next state. -/
def andThen {α β : Type} (o : Host.Outcome α Fault Refusal) (f : α → Host.Outcome β Fault Refusal) :
    Host.Outcome β Fault Refusal :=
  match o with
  | .next a => f a
  | .fault r => .fault r
  | .refused r => .refused r

/-- Host `h` delivers one command, which the core takes before anything else: one step (R60, R70). -/
def deliver (h : Nat) (c : Command) (s : State) : Host.Outcome State Fault Refusal :=
  step { s with pending := .command h c :: s.pending }

/-- Host `h` delivers the commands in order, each after the response to the one before it (R60, R70); the responses in order. -/
def runCommands (h : Nat) : List Instr → State → Host.Outcome (State × List Response) Fault Refusal
  | [], s => .next (s, [])
  | i :: is, s =>
    andThen (deliver h (encode i) s) fun t =>
      andThen (runCommands h is t) fun p => .next (p.1, t.resp.toList ++ p.2)

/-- The meanings of the commands in order: "the state after commands `c1..cn` is the composition of their rules" (R60). -/
def execAll : List Instr → State → Host.Outcome State Fault Refusal
  | [], s => .next s
  | i :: is, s => andThen (exec i s) (execAll is)

/-- A command that may stand between INIT and FINAL (R233): SETMODE, or an ABSORB the encoding has. -/
def absorbOrSetmode : Instr → Bool
  | .init _ => false
  | .setmode _ => true
  | .absorb len _ => decide (len.toNat ≤ 8)
  | .final => false
  | .rdbyte _ => false
  | .rdlane _ => false

/-- The input bytes one command carries (R55): ABSORB's, and none for the others. -/
def inputOf : Instr → List Byte
  | .init _ => []
  | .setmode _ => []
  | .absorb len data => inputBytes len.toNat data
  | .final => []
  | .rdbyte _ => []
  | .rdlane _ => []

/-- `MODE` after a command, from `MODE` before it (R20, R28): a successful INIT writes 0, SETMODE its operand, the others nothing. -/
def modeAfter (m : BitVec 1) : Instr → BitVec 1
  | .init size => if supportedSize size then 0 else m
  | .setmode m' => m'
  | .absorb _ _ => m
  | .final => m
  | .rdbyte _ => m
  | .rdlane _ => m

/-! ## Pseudo-instructions -/

/-- `ABSORBN <bytes>` (R81): `ceil(n/8)` ABSORB commands, command `c` with bytes `8c .. min(8c+8, n)−1`. -/
def absorbN (X : List Byte) : List Instr :=
  (List.range ((X.length + 7) / 8)).map fun c =>
    .absorb (BitVec.ofNat 4 (min 8 (X.length - 8 * c))) (packLe ((X.drop (8 * c)).take 8))

/-- The result of HASH (R82): the configuration error, or the digest bytes read. -/
inductive HashResult where
  | configError
  | bytes (digest : List Byte)
  deriving DecidableEq, Repr

/-- The reads at the end of HASH (R82): `RDBYTE 0 ... RDBYTE (min(k, size/8) − 1)`. -/
def digestReads (size : BitVec 16) (k : Nat) : List Instr :=
  (List.range (min k (size.toNat / 8))).map fun j => .rdbyte (BitVec.ofNat 8 j)

/-- `HASH <size>, <mode>, <bytes>, <k>` (R82), run by host `h`: it ends with the configuration error where INIT does. -/
def oneShotHash (h : Nat) (size : BitVec 16) (m : BitVec 1) (X : List Byte) (k : Nat) (s : State) :
    Host.Outcome (State × HashResult) Fault Refusal :=
  andThen (runCommands h [.init size] s) fun p =>
    if p.2.any fun r => r.status == .configError then .next (p.1, .configError)
    else
      andThen (runCommands h (.setmode m :: absorbN X ++ [.final]) p.1) fun q =>
        andThen (runCommands h (digestReads size k) q.1) fun d =>
          .next (d.1, .bytes (d.2.map fun r => byteOf r.rdata 0))

end Sys2Proof.Machine
end

