-- ==== Sys2Proof/Machine/Platform.lean ====
section
/-! DEFINITION. A platform of `N_CORES` core instances (R38, R211): each has its own state, and nothing is shared. -/

namespace Sys2Proof.Machine

/-- The cores of a platform, each with its own context. -/
structure Platform where
  cores : List State
  deriving DecidableEq, Repr

/-- A platform whose cores are all in some reset state: the cores' unspecified registers need not agree (R35, R211). -/
def Platform.AtReset (p : Platform) : Prop :=
  p.cores.length = Config.nCores ∧ ∀ c ∈ p.cores, ∃ n, c = State.drawn n

/-- Core `k` takes a step; the others do not move. On a number that is no core's nothing happens. -/
def Platform.stepCore (k : Nat) (p : Platform) : Host.Outcome Platform Fault Refusal :=
  match p.cores[k]? with
  | none => .next p
  | some s =>
    match step s with
    | .next t => .next ⟨p.cores.set k t⟩
    | .fault r => .fault r
    | .refused r => .refused r

end Sys2Proof.Machine
end

