-- ==== Sys2Proof/Machine/Reference.lean ====
section
/-! DEFINITION. The digest as a function of the message alone, the sponge construction that R2 and R164 speak of: the message is
padded by pad10*1 with the mode's suffix, cut into blocks of the rate, and each block is XORed in and permuted. No command uses
this; claims compare the machine with it. -/

namespace Sys2Proof.Machine

/-- The suffix merged with the first padding bit: 0x01 for raw Keccak, 0x06 for NIST SHA-3 (R160). -/
def suffixByte (m : BitVec 1) : Byte := if m = 1 then 0x01#8 else 0x06#8

/-- The rate in bytes of an output size (R6, R7). -/
def rateBytes (size : Nat) : Nat := 8 * (25 - 2 * size / 64)

/-- pad10*1 up to a whole number of blocks of `r` bytes: at least one byte, the suffix first and bit 7 of the last byte the final
1; both in one byte where only one is left (R161, R163). -/
def padMessage (r : Nat) (m : BitVec 1) (X : List Byte) : List Byte :=
  let q := r - X.length % r
  if q = 1 then X ++ [suffixByte m ^^^ 0x80#8]
  else X ++ suffixByte m :: List.replicate (q - 2) 0#8 ++ [0x80#8]

/-- A block XORed into the state, byte `k` into `StateByte(k)`; lanes the block does not reach are unchanged (R50, R51). -/
def xorBlock (A : Lanes) (block : List Byte) : Lanes :=
  Vector.ofFn fun i : Fin 25 => lane A i.val ^^^ packLe ((block.drop (8 * i.val)).take 8)

/-- `n` blocks of `r` bytes, each XORed in and permuted. -/
def spongeBlocks (r : Nat) : Nat → List Byte → Lanes → Lanes
  | 0, _, A => A
  | n + 1, P, A => spongeBlocks r n (P.drop r) (keccakF (xorBlock A (P.take r)))

/-- The sponge state after the final permutation, from the message, the output size and the mode (R164). The number of
permutations is that of R111, `floor(n / rate) + 1`. -/
def spongeState (size : Nat) (m : BitVec 1) (X : List Byte) : Lanes :=
  spongeBlocks (rateBytes size) (X.length / rateBytes size + 1) (padMessage (rateBytes size) m X) (Vector.replicate 25 0)

/-- The digest: the first `size / 8` bytes of the squeeze output (R162). -/
def digest (size : Nat) (m : BitVec 1) (X : List Byte) : List Byte :=
  (List.range (size / 8)).map (stateByte (spongeState size m X))

end Sys2Proof.Machine
end

