-- ==== Sys2Proof/Safety.lean ====
section
/-! DEFINITION. What counts as a safe run (R206), and the invariant of the context (R24 to R27, R232). -/

namespace Sys2Proof.Machine

/-- R206: "A run in which `ERR = 1` is faulted." `ERR` is sticky, so its value at the end of a run speaks for the whole run. -/
def State.faulted (s : State) : Bool := s.err == 1#1

/-- R26: no bit of `saved` stands above its `byteIndex` bytes. -/
abbrev State.SavedClean (s : State) : Prop := s.saved >>> (8 * s.byteIndex.toNat) = 0

/-- The invariants that INIT makes true and every command keeps (R24 to R27, R232): in a phase with a context,
`capacityWords ∈ {8, 12, 16}`, `wordIndex < rateWords` and `saved` is clean. `byteIndex ≤ 7` holds by its width. -/
abbrev State.Inv (s : State) : Prop :=
  s.phase ≠ .uninit →
    s.capacityWords.toNat ∈ [8, 12, 16] ∧ s.wordIndex.toNat < s.rateWords ∧ s.SavedClean

/-- The causes of USAGE_ERROR, the table of R201: in which phase, or with which index, a command is refused. -/
def usageForbidden : Instr → State → Prop
  | .init _, _ => False
  | .setmode _, _ => False
  | .absorb _ _, s => s.phase = .uninit ∨ s.phase = .finalized
  | .final, s => s.phase = .uninit ∨ s.phase = .finalized
  | .rdbyte idx, s => s.phase ≠ .finalized ∨ s.outputBits / 8 ≤ idx.toNat
  | .rdlane idx, s => s.phase ≠ .finalized ∨ s.outputBits / 64 ≤ idx.toNat

/-- R233 and R206 together: the step succeeded and left no error recorded. -/
def cleanStep (s : State) : Bool :=
  match step s with
  | .next t => !t.faulted
  | .fault _ => false
  | .refused _ => false

end Sys2Proof.Machine
end

