-- ==== Sys2Proof/Certificates/Slice0/Obligations.lean ====
section
/-! DEFINITION. The statements for the provers. Each docstring names the rule of spec/ it formalises. -/

open Sys2Proof Sys2Proof.Machine

/-! ## Reset and the step -/

/-- R35, R230: reset leaves `PHASE = UNINIT` and `ERR = 0`; the other registers are some draw (log entry 1), and a reset between
commands does not touch the host side (log entries 2 and 4). A reset with commands still pending is covered. -/
def Obligations.ResetLeavesUninitWithErrClear : Prop :=
  State.reset.phase = .uninit ∧ State.reset.err = 0#1 ∧
  ∀ (s : State) (rest : List Input), s.pending = .reset :: rest →
    ∃ n t, step s = .next t ∧ t.phase = .uninit ∧ t.err = 0#1 ∧
      t = { State.drawn n with pending := rest, host := s.host }

/-- R60, R70: when the next input is a command word of the core's host that decodes to `i`, the step is `exec i` at that state,
with the command taken off what is pending and the host known (the model's choice of the interface: log entries 2 and 4). -/
def Obligations.StepRunsTheDecodedCommand : Prop :=
  ∀ (s : State) (h : Nat) (c : Command) (rest : List Input) (i : Instr),
    s.pending = .command h c :: rest → s.host = none ∨ s.host = some h → decode c.cmd c.data = .instr i →
    step s = exec i { s with pending := rest, host := some h }

/-- R202: an illegal word sets `ERR`, answers status 3 with `rdata = 0`, and no other register of the core is written. The equation
also says what becomes of the interface, the model's choice: the command is taken off what is pending (log entry 2), and its host
is recorded as the core's host where there was none (log entry 4). -/
def Obligations.IllegalWordAnswersIllegalCommand : Prop :=
  Status.illegalCommand.code = 3#2 ∧
  ∀ (s : State) (h : Nat) (c : Command) (rest : List Input),
    s.pending = .command h c :: rest → s.host = none ∨ s.host = some h → IllegalWord c.cmd →
    step s = .next { s with
      pending := rest, host := some h, err := 1#1, resp := some ⟨.illegalCommand, 1#1, 0⟩ }

/-- Log entry 2, the model's choice: with nothing delivered the core waits, and a step changes nothing. -/
def Obligations.IdleCoreWaits : Prop :=
  ∀ s : State, s.pending = [] → step s = .next s

/-- R62, I5: a command of a second host is refused by name (log entry 4). -/
def Obligations.SecondHostIsRefusedByName : Prop :=
  ∀ (s : State) (h k : Nat) (c : Command) (rest : List Input),
    s.pending = .command h c :: rest → s.host = some k → k ≠ h → step s = .refused (.secondHost h)

/-- R204, R234: from a state that meets the context invariant, a step whose command comes from the core's host always answers a
next state: no fault, no refusal. -/
def Obligations.StepAlwaysCompletesUnderTheInvariant : Prop :=
  ∀ s : State, s.Inv → (∀ h c rest, s.pending = .command h c :: rest → s.host = none ∨ s.host = some h) →
    ∃ t, step s = .next t

/-- Log entry 5, the model's choice: a meaning faults only on a lane that does not exist, so only outside the context invariant,
and no meaning refuses. -/
def Obligations.MeaningsFaultOnlyOutsideTheInvariant : Prop :=
  ∀ (i : Instr) (s : State),
    (∀ f, exec i s = .fault f → ¬ s.Inv ∧ s.phase = .absorbing ∧ (i = .final ∨ ∃ len data, i = .absorb len data)) ∧
    (∀ r, exec i s ≠ .refused r)

/-- Log entry 5, the model's choice: where a lane that ABSORB or FINAL must write does not exist, it stops so, by name. -/
def Obligations.MissingLaneStopsAbsorbAndFinal : Prop :=
  ∀ (s : State) (len : BitVec 4) (data : BitVec 64), s.phase = .absorbing →
    (len.toNat ≤ 8 → 8 ≤ s.byteIndex.toNat + len.toNat → 25 ≤ s.wordIndex.toNat →
      exec (.absorb len data) s = .fault (.noSuchLane s.wordIndex.toNat)) ∧
    (25 ≤ s.wordIndex.toNat → exec .final s = .fault (.noSuchLane s.wordIndex.toNat)) ∧
    (s.wordIndex.toNat < 25 → 25 ≤ s.capacityWords.toNat →
      exec .final s = .fault (.noSuchLane (24 - (s.capacityWords.toNat : Int))))

/-! ## Decoding and encoding -/

/-- R79: the decoder rejects exactly the words of its three points, whatever the data operand, the all-zero word among them; such a
command ends with ILLEGAL_COMMAND in every state, before any other check. -/
def Obligations.DecoderRejectsExactlyTheIllegalWords : Prop :=
  (∀ (cmd : BitVec 32) (data : BitVec 64), (∃ why, decode cmd data = .illegal why) ↔ IllegalWord cmd) ∧
  IllegalWord 0x00000000#32 ∧
  ∀ (s : State) (h : Nat) (c : Command) (rest : List Input),
    s.pending = .command h c :: rest → s.host = none ∨ s.host = some h → IllegalWord c.cmd →
    ∃ t r, step s = .next t ∧ t.resp = some r ∧ r.status = .illegalCommand

/-- R78: a word decodes to a command exactly when one row of the opcode table selects it, and then to that row's command; no other
row selects it. -/
def Obligations.DecoderFollowsTheOpcodeTable : Prop :=
  ∀ (cmd : BitVec 32) (data : BitVec 64),
    (∀ i, decode cmd data = .instr i → (opcodeTable.filter (·.selects cmd)).map (·.mnemonic) = [i.mnemonic]) ∧
    (∀ why, decode cmd data = .illegal why → opcodeTable.filter (·.selects cmd) = [])

/-- Decode and encode agree: every well-formed command, with every operand at every value, decodes from its encoding (R71, R73,
R80). -/
def Obligations.EncodedCommandsDecodeBack : Prop :=
  ∀ i : Instr, i.wellFormed = true → decode (encode i).cmd (encode i).data = .instr i

/-- The other direction: what the decoder reads is well-formed, re-encodes to the same word, and ABSORB keeps its data operand. -/
def Obligations.DecodedCommandsEncodeBack : Prop :=
  ∀ (cmd : BitVec 32) (data : BitVec 64) (i : Instr), decode cmd data = .instr i →
    i.wellFormed = true ∧ (encode i).cmd = cmd ∧ ∀ len d, i = .absorb len d → (encode i).data = data

/-- The words of V-E1, written out from the formats of R71: a sanity check of the decoder. -/
def Obligations.SpelledWordsDecode : Prop :=
  decode 0x01000001#32 0 = .instr (.init 256#16) ∧
  decode 0x00010002#32 0 = .instr (.setmode 1#1) ∧
  decode 0x00000083#32 0x0706050403020100#64 = .instr (.absorb 8#4 0x0706050403020100#64) ∧
  decode 0x00000004#32 0 = .instr .final ∧
  decode 0x00003F05#32 0 = .instr (.rdbyte 63#8) ∧
  decode 0x00000706#32 0 = .instr (.rdlane 7#8) ∧
  decode 0x00000093#32 0 = .illegal .lengthOver8 ∧
  decode 0x01000011#32 0 = .illegal .reservedBit ∧
  decode 0x00000000#32 0 = .illegal .reservedOpcode

/-- R72, D25: every command carries a data operand and only ABSORB reads it, so on any other word a step is the same whatever the
operand. -/
def Obligations.OnlyAbsorbReadsTheDataOperand : Prop :=
  ∀ (s : State) (h : Nat) (cmd : BitVec 32) (d d' : BitVec 64) (rest : List Input), opcodeField cmd ≠ 3#4 →
    step { s with pending := .command h ⟨cmd, d⟩ :: rest } = step { s with pending := .command h ⟨cmd, d'⟩ :: rest }

/-- R80: each assembler line assembles to the word of the command it names. -/
def Obligations.AssemblerLinesEncodeTheirCommands : Prop :=
  (∀ n, n < 65536 → assemble (.init n) = some (encode (.init (BitVec.ofNat 16 n)))) ∧
  assemble .setmodeSha3 = some (encode (.setmode 0#1)) ∧
  assemble .setmodeKeccak = some (encode (.setmode 1#1)) ∧
  (∀ len data, len < 16 → assemble (.absorb len data) = some (encode (.absorb (BitVec.ofNat 4 len) data))) ∧
  (∀ bytes : List Byte, bytes.length ≤ 8 →
    ∃ len data, assemble (.absorbString bytes) = some (encode (.absorb len data)) ∧
      inputBytes len.toNat data = bytes ∧ data.toNat < 2 ^ (8 * bytes.length)) ∧
  assemble .final = some (encode .final) ∧
  (∀ k, k < 256 → assemble (.rdbyte k) = some (encode (.rdbyte (BitVec.ofNat 8 k)))) ∧
  (∀ k, k < 256 → assemble (.rdlane k) = some (encode (.rdlane (BitVec.ofNat 8 k))))

/-! ## INIT and SETMODE -/

/-- R36, R131: in every phase INIT with a supported size makes the fresh context; `ERR` and the host side are unchanged. -/
def Obligations.InitMakesTheFreshContext : Prop :=
  ∀ (size : BitVec 16) (s : State), size.toNat = 256 ∨ size.toNat = 384 ∨ size.toNat = 512 →
    ∃ t, exec (.init size) s = .next t ∧
      (∀ i, i < 25 → lane t.A i = 0) ∧ t.saved = 0 ∧ t.byteIndex = 0 ∧ t.wordIndex = 0 ∧
      t.capacityWords.toNat = size.toNat / 32 ∧ t.mode = 0 ∧ t.phase = .absorbing ∧ t.err = s.err ∧
      t.resp = some ⟨.ok, s.err, 0⟩ ∧ t.pending = s.pending ∧ t.host = s.host ∧ t.draws = s.draws

/-- R200: INIT with any other size writes nothing, not even `ERR`, and answers status 1; nothing else raises CONFIG_ERROR; the host may
issue INIT again with a valid size; and the one-shot HASH ends with it. -/
def Obligations.UnsupportedSizeIsConfigError : Prop :=
  Status.configError.code = 1#2 ∧
  (∀ (size : BitVec 16) (s : State), ¬(size.toNat = 256 ∨ size.toNat = 384 ∨ size.toNat = 512) →
    exec (.init size) s = .next { s with resp := some ⟨.configError, s.err, 0⟩ }) ∧
  (∀ (i : Instr) (s t : State) (r : Response), exec i s = .next t → t.resp = some r → r.status = .configError →
    ∃ size : BitVec 16, i = .init size ∧ ¬(size.toNat = 256 ∨ size.toNat = 384 ∨ size.toNat = 512)) ∧
  (∀ (size size' : BitVec 16) (s t : State), exec (.init size) s = .next t →
    size'.toNat = 256 ∨ size'.toNat = 384 ∨ size'.toNat = 512 →
    ∃ u r, exec (.init size') t = .next u ∧ u.resp = some r ∧ r.status = .ok) ∧
  (∀ (h : Nat) (size : BitVec 16) (m : BitVec 1) (X : List Byte) (k : Nat) (s : State),
    ¬(size.toNat = 256 ∨ size.toNat = 384 ∨ size.toNat = 512) → s.host = none ∨ s.host = some h →
    ∃ t, oneShotHash h size m X k s = .next (t, .configError))

/-- R133: in every phase SETMODE writes `MODE` and nothing else of the core, and returns the previous mode, zero-extended. -/
def Obligations.SetmodeReturnsThePreviousMode : Prop :=
  ∀ (m : BitVec 1) (s : State),
    exec (.setmode m) s = .next { s with mode := m, resp := some ⟨.ok, s.err, s.mode.zeroExtend 64⟩ }

/-- R132: only INIT writes `capacityWords`, and only with a supported size; so `outputBits` and `rateWords` stay fixed otherwise. -/
def Obligations.OnlyInitWritesTheCapacity : Prop :=
  ∀ (i : Instr) (s t : State), exec i s = .next t →
    (¬ ∃ size : BitVec 16, i = .init size ∧ (size.toNat = 256 ∨ size.toNat = 384 ∨ size.toNat = 512)) →
    t.capacityWords = s.capacityWords ∧ t.outputBits = s.outputBits ∧ t.rateWords = s.rateWords

/-- R28, R236: ABSORB never reads `MODE`, and leaves it: changing `MODE` before an ABSORB changes nothing the ABSORB does. -/
def Obligations.AbsorbDoesNotReadTheMode : Prop :=
  ∀ (len : BitVec 4) (data : BitVec 64) (m : BitVec 1) (s t : State), exec (.absorb len data) s = .next t →
    t.mode = s.mode ∧ exec (.absorb len data) { s with mode := m } = .next { t with mode := m }

/-! ## ABSORB -/

/-- R143: the byte-serial form absorbs any sequence as R141 does, in every state that satisfies R26. -/
def Obligations.ByteSerialFormAgreesWithAbsorb : Prop :=
  ∀ (X : List Byte) (s : State), s.SavedClean → absorb X s = absorbSerial X s

/-- R144, streaming equivalence, in every state that satisfies R26 (the legal values of R20; log entry 6): without that premise the
rule does not hold of R141 read literally, since step 3 passes by a word that `saved` holds while `byteIndex = 0`. -/
def Obligations.StreamingIsTransparent : Prop :=
  ∀ (X Y : List Byte) (s : State), s.SavedClean → absorb Y (absorb X s) = absorb (X ++ Y) s

/-- R144 at the command interface: after any sequence of ABSORB commands the core is as if the concatenation of their bytes had
been absorbed at once; only the response tells the commands apart. -/
def Obligations.AbsorbCommandsFollowTheConcatenation : Prop :=
  ∀ (cs : List (BitVec 4 × BitVec 64)) (s : State), s.phase = .absorbing → s.Inv → (∀ c ∈ cs, c.1.toNat ≤ 8) →
    ∃ t, execAll (cs.map fun c => .absorb c.1 c.2) s = .next t ∧
      t = { absorb (cs.flatMap fun c => inputBytes c.1.toNat c.2) s with resp := t.resp }

/-- R81: ABSORBN expands to ABSORB commands that absorb the whole sequence. -/
def Obligations.AbsorbnAbsorbsTheWholeSequence : Prop :=
  ∀ (X : List Byte) (s : State), s.phase = .absorbing → s.Inv →
    ∃ t, execAll (absorbN X) s = .next t ∧ t = { absorb X s with resp := t.resp }

/-- R141 step 1, R145: an ABSORB that does not complete the word in flight ORs its bytes into `saved` above those already there,
counts them, and writes nothing else. `len = 0` changes nothing. It holds in every state of PHASE ABSORBING. -/
def Obligations.ShortAbsorbIsBuffered : Prop :=
  ∀ (len : BitVec 4) (data : BitVec 64) (s : State), s.phase = .absorbing → s.byteIndex.toNat + len.toNat < 8 →
    exec (.absorb len data) s = .next { s with
      saved := s.saved ||| BitVec.ofNat 64 (data.toNat % 2 ^ (8 * len.toNat)) <<< (8 * s.byteIndex.toNat)
      byteIndex := BitVec.ofNat 3 (s.byteIndex.toNat + len.toNat)
      resp := some ⟨.ok, s.err, 0⟩ }

/-- R140 to R142, R145: an ABSORB that completes the word in flight XORs it into lane `wordIndex`, keeps the bytes left over in
`saved`, and moves on; where the block ends it permutes and returns to lane 0. -/
def Obligations.CompletingAbsorbXorsItsLane : Prop :=
  ∀ (len : BitVec 4) (data : BitVec 64) (s : State), s.phase = .absorbing → s.Inv → len.toNat ≤ 8 →
    8 ≤ s.byteIndex.toNat + len.toNat →
    ∃ P : Lanes,
      (∀ i, i < 25 → lane P i =
        if i = s.wordIndex.toNat then
          lane s.A i ^^^ (s.saved |||
            BitVec.ofNat 64 (data.toNat % 2 ^ (8 * len.toNat)) <<< (8 * s.byteIndex.toNat))
        else lane s.A i) ∧
      exec (.absorb len data) s = .next { s with
        A := if s.wordIndex.toNat + 1 = s.rateWords then keccakF P else P
        wordIndex := if s.wordIndex.toNat + 1 = s.rateWords then 0 else s.wordIndex + 1
        saved := BitVec.ofNat 64 (data.toNat % 2 ^ (8 * len.toNat)) >>> (8 * (8 - s.byteIndex.toNat))
        byteIndex := BitVec.ofNat 3 (s.byteIndex.toNat + len.toNat - 8)
        resp := some ⟨.ok, s.err, 0⟩ }

/-- R55: "Data bits `[63 : 8*len]` are ignored": two operands that agree below bit `8*len` are absorbed alike, in every state. -/
def Obligations.AbsorbIgnoresDataAboveItsLength : Prop :=
  ∀ (len : BitVec 4) (d d' : BitVec 64) (s : State),
    (∀ i, i < 8 * len.toNat → d.getLsbD i = d'.getLsbD i) → exec (.absorb len d) s = exec (.absorb len d') s

/-- R22, R140, R145: the frame of ABSORB. When it answers a next state, `MODE`, `capacityWords`, `PHASE` and the host side are
unchanged, and `ERR` too when the command is accepted; unless the block ends in it, every byte of the state outside lane
`wordIndex` is as before, and all of them where no word is completed. -/
def Obligations.AbsorbFrame : Prop :=
  ∀ (len : BitVec 4) (data : BitVec 64) (s t : State), exec (.absorb len data) s = .next t →
    t.mode = s.mode ∧ t.capacityWords = s.capacityWords ∧ t.phase = s.phase ∧ t.pending = s.pending ∧ t.host = s.host ∧
    t.draws = s.draws ∧ (len.toNat ≤ 8 → s.phase = .absorbing → t.err = s.err) ∧
    (¬(8 ≤ s.byteIndex.toNat + len.toNat ∧ s.wordIndex.toNat + 1 = s.rateWords) →
      ∀ k, k < 200 → k / 8 ≠ s.wordIndex.toNat ∨ s.byteIndex.toNat + len.toNat < 8 →
        stateByte t.A k = stateByte s.A k)

/-- R25, R51: `n` bytes absorbed into a fresh context leave `byteIndex = n mod 8` and `wordIndex = (n div 8) mod rateWords`. -/
def Obligations.AbsorbPositionCountsTheBytes : Prop :=
  ∀ (size : BitVec 16) (X : List Byte) (s t : State), size.toNat = 256 ∨ size.toNat = 384 ∨ size.toNat = 512 →
    exec (.init size) s = .next t →
    (absorb X t).byteIndex.toNat = X.length % 8 ∧ (absorb X t).wordIndex.toNat = X.length / 8 % t.rateWords

/-- R23, R50, R51 within the first block: byte `k` of the input stands in `StateByte(k)`, the bytes of the last partial word stand in
`saved` from the low-order byte up, and the rest of the state is 0. -/
def Obligations.InputBytesLandLittleEndian : Prop :=
  ∀ (size : BitVec 16) (X : List Byte) (s t : State), size.toNat = 256 ∨ size.toNat = 384 ∨ size.toNat = 512 →
    exec (.init size) s = .next t → X.length < 8 * t.rateWords →
    (∀ k, k < 200 → stateByte (absorb X t).A k = if k < 8 * (X.length / 8) then X.getD k 0 else 0) ∧
    (∀ j, j < 8 → byteOf (absorb X t).saved j = X.getD (8 * (X.length / 8) + j) 0)

/-! ## FINAL, RDBYTE and RDLANE -/

/-- R160, R161: FINAL XORs the padding word and `saved` into lane `wordIndex` and bit 63 into lane `rateWords − 1`, both into one
lane where they meet, permutes, and writes nothing else but `PHASE`. -/
def Obligations.FinalPadsAndPermutes : Prop :=
  ∀ s : State, s.phase = .absorbing → s.wordIndex.toNat < 25 → s.capacityWords.toNat < 25 →
    ∃ P : Lanes,
      (∀ i, i < 25 → lane P i =
        lane s.A i ^^^
          (if i = s.wordIndex.toNat then
            s.saved ^^^ (if s.mode = 1#1 then 0x01#64 else 0x06#64) <<< (8 * s.byteIndex.toNat)
          else 0) ^^^
          (if i = s.rateWords - 1 then 0x8000000000000000#64 else 0)) ∧
      exec .final s = .next { s with A := keccakF P, phase := .finalized, resp := some ⟨.ok, s.err, 0⟩ }

/-- R165, R50: RDBYTE of a digest byte returns it, zero-extended, and writes no register of the core. -/
def Obligations.RdbyteReturnsTheDigestByte : Prop :=
  ∀ (idx : BitVec 8) (s : State), s.phase = .finalized → idx.toNat < s.outputBits / 8 →
    exec (.rdbyte idx) s = .next { s with
      resp := some ⟨.ok, s.err,
        ((lane s.A (idx.toNat / 8)).extractLsb' (8 * (idx.toNat % 8)) 8).zeroExtend 64⟩ }

/-- R166: RDLANE of a digest lane returns it and writes no register of the core. -/
def Obligations.RdlaneReturnsTheDigestLane : Prop :=
  ∀ (idx : BitVec 8) (s : State), s.phase = .finalized → idx.toNat < s.outputBits / 64 →
    exec (.rdlane idx) s = .next { s with resp := some ⟨.ok, s.err, lane s.A idx.toNat⟩ }

/-- R55, R166: byte `j` of what RDLANE `idx` returns is what RDBYTE `8*idx + j` returns. -/
def Obligations.RdlaneBytesAreTheRdbyteBytes : Prop :=
  ∀ (idx : BitVec 8) (j : Nat) (s : State), s.phase = .finalized → idx.toNat < s.outputBits / 64 → j < 8 →
    ∃ t u r q, exec (.rdlane idx) s = .next t ∧ t.resp = some r ∧ r.status = .ok ∧
      exec (.rdbyte (BitVec.ofNat 8 (8 * idx.toNat + j))) s = .next u ∧ u.resp = some q ∧ q.status = .ok ∧
      q.rdata = (r.rdata.extractLsb' (8 * j) 8).zeroExtend 64

/-- R58: a read that succeeded, repeated, gives the same state and the same response again. -/
def Obligations.ReadsAreIdempotent : Prop :=
  ∀ (idx : BitVec 8) (s t : State),
    (exec (.rdbyte idx) s = .next t → exec (.rdbyte idx) t = .next t) ∧
    (exec (.rdlane idx) s = .next t → exec (.rdlane idx) t = .next t)

/-! ## Errors, responses and the lifecycle -/

/-- R201: USAGE_ERROR is raised in exactly the cases of its table; it sets `ERR`, answers status 2 with `rdata = 0`, and writes
nothing else. INIT and SETMODE never raise it. -/
def Obligations.UsageErrorExactlyWhereForbidden : Prop :=
  Status.usageError.code = 2#2 ∧
  ∀ (i : Instr) (s : State), i.wellFormed = true →
    (usageForbidden i s → exec i s = .next { s with err := 1#1, resp := some ⟨.usageError, 1#1, 0⟩ }) ∧
    (∀ t r, exec i s = .next t → t.resp = some r → r.status = .usageError → usageForbidden i s)

/-- R203: a failed command leaves the core as it was but for `ERR`, which USAGE_ERROR and ILLEGAL_COMMAND set, and its response is
`(status, ERR, 0)`. -/
def Obligations.FailedCommandWritesOnlyErr : Prop :=
  ∀ (i : Instr) (s t : State) (r : Response), exec i s = .next t → t.resp = some r → r.status ≠ .ok →
    t = { s with err := t.err, resp := t.resp } ∧
    t.err = (if r.status = .usageError ∨ r.status = .illegalCommand then 1#1 else s.err) ∧
    r.err = t.err ∧ r.rdata = 0

/-- R76 and the rule of R31 it rests on: every response carries `ERR` as it is after the command, which is 1 from the first USAGE_ERROR
or ILLEGAL_COMMAND until reset: a step that is no command and no reset leaves it, and a reset clears it. -/
def Obligations.ErrIsStickyAndEchoed : Prop :=
  ∀ s t : State, step s = .next t →
    (∀ h c rest, s.pending = .command h c :: rest →
      ∃ r, t.resp = some r ∧ r.err = t.err ∧
        (t.err = 1#1 ↔ s.err = 1#1 ∨ r.status = .usageError ∨ r.status = .illegalCommand)) ∧
    (∀ rest, s.pending = .reset :: rest → t.err = 0#1) ∧
    (s.pending = [] → t.err = s.err)

/-- R31, R208: `ERR` stops nothing: with any value of it a command does the same to every other register and answers the same
status and data. -/
def Obligations.ErrDoesNotStopCommands : Prop :=
  ∀ (i : Instr) (e : BitVec 1) (s t : State) (r : Response), exec i s = .next t → t.resp = some r →
    ∃ u q, exec i { s with err := e } = .next u ∧ u.resp = some q ∧ q.status = r.status ∧ q.rdata = r.rdata ∧
      u = { t with err := u.err, resp := u.resp }

/-- R77: what `rdata` holds after each command, and 0 in every other case, an illegal word among them. -/
def Obligations.RdataIsZeroUnlessRead : Prop :=
  (∀ (i : Instr) (s t : State) (r : Response), exec i s = .next t → t.resp = some r →
    r.rdata =
      match i, r.status with
      | .setmode _, .ok => s.mode.zeroExtend 64
      | .rdbyte idx, .ok => (stateByte s.A idx.toNat).zeroExtend 64
      | .rdlane idx, .ok => lane s.A idx.toNat
      | _, _ => 0) ∧
  ∀ (s t : State) (h : Nat) (c : Command) (rest : List Input) (r : Response), s.pending = .command h c :: rest →
    IllegalWord c.cmd → step s = .next t → t.resp = some r → r.rdata = 0

/-- R30: the lifecycle. UNINIT is entered by reset, ABSORBING by a successful INIT, FINALIZED by FINAL, and no other command moves
`PHASE` (a failed INIT among them); a command the table refuses in a phase ends in USAGE_ERROR, and one it accepts does not (a
read only for its index); value 3 is never held. -/
def Obligations.PhaseFollowsTheLifecycle : Prop :=
  (∀ (i : Instr) (s t : State) (r : Response), exec i s = .next t → t.resp = some r →
    t.phase =
      match i, r.status with
      | .init _, .ok => .absorbing
      | .final, .ok => .finalized
      | _, _ => s.phase) ∧
  (∀ (i : Instr) (s : State), i.wellFormed = true → s.phase.accepts i = false →
    ∃ t r, exec i s = .next t ∧ t.resp = some r ∧ r.status = .usageError) ∧
  (∀ (i : Instr) (s t : State) (r : Response), s.phase.accepts i = true → exec i s = .next t → t.resp = some r →
    r.status = .usageError →
    ∃ idx : BitVec 8, (i = .rdbyte idx ∧ s.outputBits / 8 ≤ idx.toNat) ∨ (i = .rdlane idx ∧ s.outputBits / 64 ≤ idx.toNat)) ∧
  (∀ (s t : State) (rest : List Input), s.pending = .reset :: rest → step s = .next t → t.phase = .uninit) ∧
  (Phase.uninit.code = 0#2 ∧ Phase.absorbing.code = 1#2 ∧ Phase.finalized.code = 2#2 ∧ ∀ p : Phase, p.code ≠ 3#2)

/-! ## The context invariant -/

/-- Log entry 1 rests on R35: right after reset there is no context, so the invariant holds, whatever the free draws are. -/
def Obligations.ResetMeetsTheContextInvariant : Prop :=
  ∀ n : Nat, (State.drawn n).Inv ∧ State.reset.Inv

/-- R232: "INIT alone makes the invariants" true: from every state, invariant or not. -/
def Obligations.InitEstablishesTheContextInvariant : Prop :=
  ∀ (size : BitVec 16) (s t : State) (r : Response), exec (.init size) s = .next t → t.resp = some r → r.status = .ok →
    t.phase = .absorbing ∧ t.Inv

/-- R24 to R27: every step keeps the context invariant, from every state that meets it. -/
def Obligations.StepKeepsTheContextInvariant : Prop :=
  ∀ s t : State, s.Inv → step s = .next t → t.Inv

/-! ## The permutation -/

/-- R102: theta XORs into every lane of column `x` the parity of column `x−1` and that of column `x+1` rotated left by 1. -/
def Obligations.ThetaXorsNeighbourParities : Prop :=
  ∀ (A : Lanes) (x y : Nat), x < 5 → y < 5 →
    lane (theta A) (x + 5 * y) =
      lane A (x + 5 * y) ^^^
        (lane A ((x + 4) % 5) ^^^ lane A ((x + 4) % 5 + 5) ^^^ lane A ((x + 4) % 5 + 10) ^^^
          lane A ((x + 4) % 5 + 15) ^^^ lane A ((x + 4) % 5 + 20)) ^^^
        (lane A ((x + 1) % 5) ^^^ lane A ((x + 1) % 5 + 5) ^^^ lane A ((x + 1) % 5 + 10) ^^^
          lane A ((x + 1) % 5 + 15) ^^^ lane A ((x + 1) % 5 + 20)).rotateLeft 1

/-- R106: the single pass of R103 moves lane `s` to lane `dest(s)`, rotated left by `rho(s)`, and leaves `A[0]`; the table's
destinations are the lanes 1..24, each once, so this fixes the whole result. -/
def Obligations.RhoPiMatchesThePerLaneForm : Prop :=
  (∀ A : Lanes, lane (rhoPi A) 0 = lane A 0 ∧
    ∀ row ∈ perLaneTable, lane (rhoPi A) row.2.1 = (lane A row.1).rotateLeft row.2.2) ∧
  (perLaneTable.map fun row => row.1) = (List.range 24).map (· + 1) ∧
  ∀ i, 1 ≤ i → i < 25 → i ∈ perLaneTable.map fun row => row.2.1

/-- R107: chi, every lane of a row from the row's values before chi; an all-zero row stays zero and an all-ones row stays all ones. -/
def Obligations.ChiCombinesEachRow : Prop :=
  (∀ (A : Lanes) (x y : Nat), x < 5 → y < 5 →
    lane (chi A) (x + 5 * y) =
      lane A (x + 5 * y) ^^^ (~~~ lane A ((x + 1) % 5 + 5 * y) &&& lane A ((x + 2) % 5 + 5 * y))) ∧
  (∀ (A : Lanes) (y : Nat) (v : Lane), y < 5 → v = 0 ∨ v = BitVec.allOnes 64 →
    (∀ x, x < 5 → lane A (x + 5 * y) = v) → ∀ x, x < 5 → lane (chi A) (x + 5 * y) = v)

/-- R101, R108: iota XORs the round constant into lane 0 and changes no other lane; the 24 rounds run in order, round `r` with `RC[r]`,
each theta, rho/pi, chi, iota. -/
def Obligations.RoundsRunInOrderWithTheirConstants : Prop :=
  (∀ (A : Lanes) (rc : Lane),
    lane (iota A rc) 0 = lane A 0 ^^^ rc ∧ ∀ i, 1 ≤ i → i < 25 → lane (iota A rc) i = lane A i) ∧
  roundConstants.length = 24 ∧
  ∀ A : Lanes, keccakF A =
    (List.range 24).foldl (fun B r => iota (chi (rhoPi (theta B))) (roundConstants.getD r 0)) A

/-! ## Whole hashes -/

/-- R164, R144, R236, R161: a whole hash. From any state, after INIT, any SETMODEs and ABSORBs and FINAL (the sequence of R233), the
core is FINALIZED and its sponge state is that of the sponge construction on the concatenated input, in the mode last set: so
the digest is a function of the input bytes, the output size and `MODE` at FINAL alone. -/
def Obligations.WholeHashIsTheSpongeOfItsInput : Prop :=
  ∀ (size : BitVec 16) (p : List Instr) (s : State), size.toNat = 256 ∨ size.toNat = 384 ∨ size.toNat = 512 →
    (∀ i ∈ p, absorbOrSetmode i = true) →
    ∃ t, execAll (.init size :: p ++ [.final]) s = .next t ∧ t.phase = .finalized ∧ t.outputBits = size.toNat ∧
      t.err = s.err ∧ t.A = spongeState size.toNat (p.foldl modeAfter 0) (p.flatMap inputOf)

/-- R82, R167: the one-shot HASH of any input returns the first `min(k, outputBits/8)` bytes of the digest, never an error for a large
`k`, when the core's own host runs it. -/
def Obligations.HashReturnsTheTruncatedDigest : Prop :=
  ∀ (h : Nat) (size : BitVec 16) (m : BitVec 1) (X : List Byte) (k : Nat) (s : State),
    size.toNat = 256 ∨ size.toNat = 384 ∨ size.toNat = 512 → s.host = none ∨ s.host = some h →
    ∃ t, oneShotHash h size m X k s = .next (t, .bytes ((digest size.toNat m X).take k)) ∧
      (digest size.toNat m X).length = size.toNat / 8

/-! ## Several cores -/

/-- R38, R211: cores share no state: a step of one core leaves every other core of the platform as it was. -/
def Obligations.CoresShareNoState : Prop :=
  ∀ (k : Nat) (p q : Platform), Platform.stepCore k p = .next q →
    q.cores.length = p.cores.length ∧ (∀ j, j ≠ k → q.cores[j]? = p.cores[j]?) ∧
    ∀ s, p.cores[k]? = some s → ∃ t, step s = .next t ∧ q.cores[k]? = some t
end

