-- ==== Sys2Proof/Laws/Bytes.lean ====
section
/-! SUPPORT. Bytes and words: packing little-endian (R51) and taking the bytes of a word (R55) undo each other. -/

namespace Sys2Proof.Machine

/-- The sizes INIT takes (R6). -/
theorem supportedSize_iff (size : BitVec 16) :
    supportedSize size = true ↔ size.toNat = 256 ∨ size.toNat = 384 ∨ size.toNat = 512 := by
  simp [supportedSize, outputSizes]

/-- An ABSORB has as many input bytes as its `len` (R55). -/
@[simp] theorem length_inputBytes (len : Nat) (data : BitVec 64) : (inputBytes len data).length = len := by
  simp [inputBytes]

/-- Bit `k` of byte `j` of a word (R50). -/
theorem getLsbD_byteOf (v : BitVec 64) (j : Nat) {k : Nat} (hk : k < 8) :
    (byteOf v j).getLsbD k = v.getLsbD (8 * j + k) := by
  simp [byteOf, hk]

/-- Bit `k` of a packed word is bit `k mod 8` of byte `k div 8` (R51); above the bytes it is 0. -/
theorem getLsbD_packLe (X : List Byte) {k : Nat} (hk : k < 64) :
    (packLe X).getLsbD k = (X.getD (k / 8) 0).getLsbD (k % 8) := by
  induction X generalizing k with
  | nil => simp [packLe]
  | cons b bs ih =>
    rw [packLe, BitVec.getLsbD_or, BitVec.getLsbD_shiftLeft, zextByte, BitVec.zeroExtend_eq_setWidth, BitVec.getLsbD_setWidth]
    by_cases h : k < 8
    · have : k / 8 = 0 := by omega
      simp [this, h, hk, Nat.mod_eq_of_lt h]
    · have e1 : k / 8 = (k - 8) / 8 + 1 := by omega
      have e2 : k % 8 = (k - 8) % 8 := by omega
      have hb : b.getLsbD k = false := BitVec.getLsbD_of_ge b k (by omega)
      rw [e1, List.getD_cons_succ, e2, ih (by omega)]
      simp [hk, h, hb]

/-- Byte `j` of a packed word (R51). -/
theorem byteOf_packLe (X : List Byte) {j : Nat} (hj : j < 8) : byteOf (packLe X) j = X.getD j 0 := by
  ext k hk
  rw [← BitVec.getLsbD_eq_getElem, ← BitVec.getLsbD_eq_getElem, getLsbD_byteOf _ _ hk, getLsbD_packLe _ (by omega),
    show (8 * j + k) / 8 = j by omega, show (8 * j + k) % 8 = k by omega]

/-- The bytes an operand carries, of the word that packs them, are those bytes (R80). -/
theorem inputBytes_packLe (X : List Byte) (h : X.length ≤ 8) : inputBytes X.length (packLe X) = X := by
  apply List.ext_getElem
  · simp
  · intro j h1 h2
    simp [inputBytes, byteOf_packLe X (show j < 8 by omega), h2]

/-- The word that packs the input bytes of an operand is the operand below bit `8 * len` (R55). -/
theorem packLe_inputBytes (len : Nat) (data : BitVec 64) :
    packLe (inputBytes len data) = BitVec.ofNat 64 (data.toNat % 2 ^ (8 * len)) := by
  ext k hk
  rw [← BitVec.getLsbD_eq_getElem, ← BitVec.getLsbD_eq_getElem, getLsbD_packLe _ hk]
  simp only [BitVec.getLsbD_ofNat, Nat.testBit_mod_two_pow, BitVec.testBit_toNat, hk, decide_true, Bool.true_and]
  by_cases hk2 : k < 8 * len
  · have : k / 8 < len := by omega
    simp only [inputBytes, List.getD_eq_getElem?_getD, List.getElem?_map, List.getElem?_range this, Option.map_some,
      Option.getD_some]
    rw [getLsbD_byteOf _ _ (by omega), show 8 * (k / 8) + k % 8 = k by omega]
    simp [hk2]
  · rw [List.getD_eq_getElem?_getD, List.getElem?_eq_none (by simp; omega)]
    simp [hk2]

/-- A packed sequence stands below its length (R51). -/
theorem packLe_lt (X : List Byte) : (packLe X).toNat < 2 ^ (8 * X.length) := by
  apply Nat.lt_pow_two_of_testBit
  intro i hi
  rw [BitVec.testBit_toNat]
  by_cases hk : i < 64
  · rw [getLsbD_packLe _ hk, List.getD_eq_getElem?_getD, List.getElem?_eq_none (by omega)]
    simp
  · exact BitVec.getLsbD_of_ge _ _ (by omega)

/-- Dropping bytes of a packed sequence is a shift of its word (R141 step 4). -/
theorem packLe_drop (X : List Byte) (n : Nat) (h : X.length ≤ 8) : packLe (X.drop n) = packLe X >>> (8 * n) := by
  ext k hk
  rw [← BitVec.getLsbD_eq_getElem, getLsbD_packLe _ hk, BitVec.getElem_ushiftRight]
  by_cases h2 : 8 * n + k < 64
  · rw [getLsbD_packLe _ h2]
    simp only [List.getD_eq_getElem?_getD, List.getElem?_drop]
    rw [show (8 * n + k) / 8 = n + k / 8 by omega, show (8 * n + k) % 8 = k % 8 by omega]
  · rw [BitVec.getLsbD_of_ge (packLe X) _ (by omega), List.getD_eq_getElem?_getD, List.getElem?_eq_none (by simp; omega)]
    simp

end Sys2Proof.Machine
end

