-- ==== Sys2Proof/Laws/Permutation.lean ====
section
/-! SUPPORT. Reading a lane after each of the operations that build a sponge state. -/

namespace Sys2Proof.Machine

/-- Within the state, `lane` is the vector's own element (R10). -/
theorem lane_eq_getElem (A : Lanes) {i : Nat} (h : i < 25) : lane A i = A[i] := by
  simp [lane, List.getD_eq_getElem?_getD, h]

/-- Two sponge states are equal when their 25 lanes are. -/
theorem lanes_ext {A B : Lanes} (h : ∀ i, i < 25 → lane A i = lane B i) : A = B :=
  Vector.ext fun i hi => by simpa only [lane_eq_getElem _ hi] using h i hi

/-- A lane of a state built lane by lane. -/
theorem lane_ofFn (f : Fin 25 → Lane) {i : Nat} (h : i < 25) : lane (Vector.ofFn f) i = f ⟨i, h⟩ := by
  rw [lane_eq_getElem _ h, Vector.getElem_ofFn]

/-- Every lane of the all-zero state is 0. -/
@[simp] theorem lane_replicate_zero (i : Nat) : lane (Vector.replicate 25 0#64) i = 0#64 := by
  by_cases h : i < 25
  · rw [lane_eq_getElem _ h, Vector.getElem_replicate]
  · simp [lane, List.getD_eq_getElem?_getD, h]

/-- A lane after a lane write: the value written, or the lane as it was. -/
theorem lane_setLane (A : Lanes) (i j : Nat) (v : Lane) (hj : j < 25) :
    lane (setLane A i v) j = if i = j then v else lane A j := by
  simp only [setLane, lane_eq_getElem _ hj, Vector.getElem_setIfInBounds]

/-- The lane just written. -/
@[simp] theorem lane_setLane_self (A : Lanes) {i : Nat} (v : Lane) (h : i < 25) : lane (setLane A i v) i = v := by
  simp [lane_setLane _ _ _ _ h]

/-- A lane other than the one written. -/
theorem lane_setLane_ne (A : Lanes) {i j : Nat} (v : Lane) (hj : j < 25) (h : i ≠ j) :
    lane (setLane A i v) j = lane A j := by
  simp [lane_setLane _ _ _ _ hj, h]

/-- A byte of the state depends on its own lane alone (R50). -/
theorem stateByte_congr {A B : Lanes} {k : Nat} (h : lane A (k / 8) = lane B (k / 8)) : stateByte A k = stateByte B k := by
  simp only [stateByte, h]

/-- `rotl64` is the rotation of the word (R9). -/
theorem rotl64_eq_rotateLeft (x : Lane) {n : Nat} (h : n < 64) : rotl64 x n = x.rotateLeft n := by
  rw [rotl64, BitVec.rotateLeft_def, Nat.mod_eq_of_lt h]

/-- A lane of theta (R102). -/
theorem lane_theta (A : Lanes) {i : Nat} (h : i < 25) : lane (theta A) i = lane A i ^^^ thetaMix A (i % 5) := by
  rw [theta, lane_ofFn _ h]

/-- A lane of chi (R107). -/
theorem lane_chi (A : Lanes) {i : Nat} (h : i < 25) :
    lane (chi A) i =
      lane A i ^^^ (~~~ lane A ((i % 5 + 1) % 5 + 5 * (i / 5)) &&& lane A ((i % 5 + 2) % 5 + 5 * (i / 5))) := by
  rw [chi, lane_ofFn _ h]

/-- The single pass of R103 writes only the lanes of its steps. -/
theorem rhoPiSteps_other (steps : List (Nat × Nat)) (t : Lane) (A : Lanes) {j : Nat} (hj : j < 25)
    (h : j ∉ steps.map Prod.fst) : lane (rhoPiSteps steps t A) j = lane A j := by
  induction steps generalizing t A with
  | nil => rfl
  | cons p rest ih =>
    simp only [List.map_cons, List.mem_cons, not_or] at h
    rw [rhoPiSteps, ih _ _ h.2, lane_setLane_ne _ _ hj (Ne.symm h.1)]

/-- Step `m` of the single pass (R103) writes what step `m − 1` read, or the scratch lane's first value, rotated. -/
theorem rhoPiSteps_get (steps : List (Nat × Nat)) (t : Lane) (A : Lanes) (hd : (steps.map Prod.fst).Nodup)
    (hb : ∀ p ∈ steps, p.1 < 25) (m : Nat) (hm : m < steps.length) :
    lane (rhoPiSteps steps t A) steps[m].1 =
      rotl64 (if _h : m = 0 then t else lane A (steps[m - 1]'(by omega)).1) steps[m].2 := by
  induction steps generalizing t A m with
  | nil => simp at hm
  | cons p rest ih =>
    obtain ⟨k, r⟩ := p
    simp only [List.map_cons, List.nodup_cons] at hd
    have hk : k < 25 := hb (k, r) (by simp)
    cases m with
    | zero =>
      simp only [rhoPiSteps, List.getElem_cons_zero, dite_true]
      rw [rhoPiSteps_other _ _ _ hk hd.1, lane_setLane_self _ _ hk]
    | succ m =>
      simp only [List.length_cons, Nat.add_lt_add_iff_right] at hm
      simp only [rhoPiSteps, List.getElem_cons_succ]
      rw [ih _ _ hd.2 (fun p hp => hb p (by simp [hp])) m hm]
      cases m with
      | zero => simp
      | succ m =>
        have hne : k ≠ rest[m].1 := by
          intro he
          exact hd.1 (by rw [he]; exact List.mem_map_of_mem (by simp))
        simp only [Nat.add_eq_zero_iff, one_ne_zero, and_false, dite_false, Nat.add_sub_cancel, List.getElem_cons_succ]
        rw [lane_setLane_ne _ _ (hb _ (by simp)) hne]

end Sys2Proof.Machine
end

