-- ==== Sys2Proof/Laws/State.lean ====
section
/-! SUPPORT. One lemma per field per update of the state, each true by `rfl`, so that no later proof unfolds a record update. -/

namespace Sys2Proof.Machine

/-! Ending a command with a response: `respond`. -/

@[simp] theorem respond_A (st : Status) (v : BitVec 64) (s : State) : (respond st v s).A = s.A := rfl
@[simp] theorem respond_saved (st : Status) (v : BitVec 64) (s : State) : (respond st v s).saved = s.saved := rfl
@[simp] theorem respond_byteIndex (st : Status) (v : BitVec 64) (s : State) : (respond st v s).byteIndex = s.byteIndex := rfl
@[simp] theorem respond_wordIndex (st : Status) (v : BitVec 64) (s : State) : (respond st v s).wordIndex = s.wordIndex := rfl
@[simp] theorem respond_capacityWords (st : Status) (v : BitVec 64) (s : State) :
    (respond st v s).capacityWords = s.capacityWords :=
    rfl
@[simp] theorem respond_mode (st : Status) (v : BitVec 64) (s : State) : (respond st v s).mode = s.mode := rfl
@[simp] theorem respond_phase (st : Status) (v : BitVec 64) (s : State) : (respond st v s).phase = s.phase := rfl
@[simp] theorem respond_err (st : Status) (v : BitVec 64) (s : State) : (respond st v s).err = s.err := rfl
@[simp] theorem respond_resp (st : Status) (v : BitVec 64) (s : State) : (respond st v s).resp = some ⟨st, s.err, v⟩ := rfl
@[simp] theorem respond_pending (st : Status) (v : BitVec 64) (s : State) : (respond st v s).pending = s.pending := rfl
@[simp] theorem respond_host (st : Status) (v : BitVec 64) (s : State) : (respond st v s).host = s.host := rfl
@[simp] theorem respond_draws (st : Status) (v : BitVec 64) (s : State) : (respond st v s).draws = s.draws := rfl

/-! Raising an error: `raise`. -/

@[simp] theorem raise_A (e : CommandError) (s : State) : (raise e s).A = s.A := rfl
@[simp] theorem raise_saved (e : CommandError) (s : State) : (raise e s).saved = s.saved := rfl
@[simp] theorem raise_byteIndex (e : CommandError) (s : State) : (raise e s).byteIndex = s.byteIndex := rfl
@[simp] theorem raise_wordIndex (e : CommandError) (s : State) : (raise e s).wordIndex = s.wordIndex := rfl
@[simp] theorem raise_capacityWords (e : CommandError) (s : State) : (raise e s).capacityWords = s.capacityWords := rfl
@[simp] theorem raise_mode (e : CommandError) (s : State) : (raise e s).mode = s.mode := rfl
@[simp] theorem raise_phase (e : CommandError) (s : State) : (raise e s).phase = s.phase := rfl
@[simp] theorem raise_err (e : CommandError) (s : State) : (raise e s).err = errAfter e.status s.err := rfl
@[simp] theorem raise_resp (e : CommandError) (s : State) : (raise e s).resp = some ⟨e.status, errAfter e.status s.err, 0⟩ := rfl
@[simp] theorem raise_pending (e : CommandError) (s : State) : (raise e s).pending = s.pending := rfl
@[simp] theorem raise_host (e : CommandError) (s : State) : (raise e s).host = s.host := rfl
@[simp] theorem raise_draws (e : CommandError) (s : State) : (raise e s).draws = s.draws := rfl

/-! The fresh context: `freshContext`. -/

@[simp] theorem freshContext_A (size : BitVec 16) (s : State) : (freshContext size s).A = Vector.replicate 25 0 := rfl
@[simp] theorem freshContext_saved (size : BitVec 16) (s : State) : (freshContext size s).saved = 0 := rfl
@[simp] theorem freshContext_byteIndex (size : BitVec 16) (s : State) : (freshContext size s).byteIndex = 0 := rfl
@[simp] theorem freshContext_wordIndex (size : BitVec 16) (s : State) : (freshContext size s).wordIndex = 0 := rfl
@[simp] theorem freshContext_capacityWords (size : BitVec 16) (s : State) :
    (freshContext size s).capacityWords = capacityFor size :=
    rfl
@[simp] theorem freshContext_mode (size : BitVec 16) (s : State) : (freshContext size s).mode = 0 := rfl
@[simp] theorem freshContext_phase (size : BitVec 16) (s : State) : (freshContext size s).phase = .absorbing := rfl
@[simp] theorem freshContext_err (size : BitVec 16) (s : State) : (freshContext size s).err = s.err := rfl
@[simp] theorem freshContext_resp (size : BitVec 16) (s : State) : (freshContext size s).resp = s.resp := rfl
@[simp] theorem freshContext_pending (size : BitVec 16) (s : State) : (freshContext size s).pending = s.pending := rfl
@[simp] theorem freshContext_host (size : BitVec 16) (s : State) : (freshContext size s).host = s.host := rfl
@[simp] theorem freshContext_draws (size : BitVec 16) (s : State) : (freshContext size s).draws = s.draws := rfl

/-! XORing a word into a lane: `xorLane`. -/

@[simp] theorem xorLane_A (i : Nat) (w : Lane) (s : State) : (xorLane i w s).A = setLane s.A i (lane s.A i ^^^ w) := rfl
@[simp] theorem xorLane_saved (i : Nat) (w : Lane) (s : State) : (xorLane i w s).saved = s.saved := rfl
@[simp] theorem xorLane_byteIndex (i : Nat) (w : Lane) (s : State) : (xorLane i w s).byteIndex = s.byteIndex := rfl
@[simp] theorem xorLane_wordIndex (i : Nat) (w : Lane) (s : State) : (xorLane i w s).wordIndex = s.wordIndex := rfl
@[simp] theorem xorLane_capacityWords (i : Nat) (w : Lane) (s : State) : (xorLane i w s).capacityWords = s.capacityWords := rfl
@[simp] theorem xorLane_mode (i : Nat) (w : Lane) (s : State) : (xorLane i w s).mode = s.mode := rfl
@[simp] theorem xorLane_phase (i : Nat) (w : Lane) (s : State) : (xorLane i w s).phase = s.phase := rfl
@[simp] theorem xorLane_err (i : Nat) (w : Lane) (s : State) : (xorLane i w s).err = s.err := rfl
@[simp] theorem xorLane_resp (i : Nat) (w : Lane) (s : State) : (xorLane i w s).resp = s.resp := rfl
@[simp] theorem xorLane_pending (i : Nat) (w : Lane) (s : State) : (xorLane i w s).pending = s.pending := rfl
@[simp] theorem xorLane_host (i : Nat) (w : Lane) (s : State) : (xorLane i w s).host = s.host := rfl
@[simp] theorem xorLane_draws (i : Nat) (w : Lane) (s : State) : (xorLane i w s).draws = s.draws := rfl

/-! One byte into the partial word: `bufferByte`. -/

@[simp] theorem bufferByte_A (b : Byte) (s : State) : (bufferByte b s).A = s.A := rfl
@[simp] theorem bufferByte_saved (b : Byte) (s : State) :
    (bufferByte b s).saved = s.saved ||| zextByte b <<< (8 * s.byteIndex.toNat) :=
    rfl
@[simp] theorem bufferByte_byteIndex (b : Byte) (s : State) : (bufferByte b s).byteIndex = s.byteIndex + 1 := rfl
@[simp] theorem bufferByte_wordIndex (b : Byte) (s : State) : (bufferByte b s).wordIndex = s.wordIndex := rfl
@[simp] theorem bufferByte_capacityWords (b : Byte) (s : State) : (bufferByte b s).capacityWords = s.capacityWords := rfl
@[simp] theorem bufferByte_mode (b : Byte) (s : State) : (bufferByte b s).mode = s.mode := rfl
@[simp] theorem bufferByte_phase (b : Byte) (s : State) : (bufferByte b s).phase = s.phase := rfl
@[simp] theorem bufferByte_err (b : Byte) (s : State) : (bufferByte b s).err = s.err := rfl
@[simp] theorem bufferByte_resp (b : Byte) (s : State) : (bufferByte b s).resp = s.resp := rfl
@[simp] theorem bufferByte_pending (b : Byte) (s : State) : (bufferByte b s).pending = s.pending := rfl
@[simp] theorem bufferByte_host (b : Byte) (s : State) : (bufferByte b s).host = s.host := rfl
@[simp] theorem bufferByte_draws (b : Byte) (s : State) : (bufferByte b s).draws = s.draws := rfl

/-! Emptying the partial word: `clearBuffer`. -/

@[simp] theorem clearBuffer_A (s : State) : (clearBuffer s).A = s.A := rfl
@[simp] theorem clearBuffer_saved (s : State) : (clearBuffer s).saved = 0 := rfl
@[simp] theorem clearBuffer_byteIndex (s : State) : (clearBuffer s).byteIndex = 0 := rfl
@[simp] theorem clearBuffer_wordIndex (s : State) : (clearBuffer s).wordIndex = s.wordIndex := rfl
@[simp] theorem clearBuffer_capacityWords (s : State) : (clearBuffer s).capacityWords = s.capacityWords := rfl
@[simp] theorem clearBuffer_mode (s : State) : (clearBuffer s).mode = s.mode := rfl
@[simp] theorem clearBuffer_phase (s : State) : (clearBuffer s).phase = s.phase := rfl
@[simp] theorem clearBuffer_err (s : State) : (clearBuffer s).err = s.err := rfl
@[simp] theorem clearBuffer_resp (s : State) : (clearBuffer s).resp = s.resp := rfl
@[simp] theorem clearBuffer_pending (s : State) : (clearBuffer s).pending = s.pending := rfl
@[simp] theorem clearBuffer_host (s : State) : (clearBuffer s).host = s.host := rfl
@[simp] theorem clearBuffer_draws (s : State) : (clearBuffer s).draws = s.draws := rfl

/-! Running the permutation: `permute`. -/

@[simp] theorem permute_A (s : State) : (permute s).A = keccakF s.A := rfl
@[simp] theorem permute_saved (s : State) : (permute s).saved = s.saved := rfl
@[simp] theorem permute_byteIndex (s : State) : (permute s).byteIndex = s.byteIndex := rfl
@[simp] theorem permute_wordIndex (s : State) : (permute s).wordIndex = s.wordIndex := rfl
@[simp] theorem permute_capacityWords (s : State) : (permute s).capacityWords = s.capacityWords := rfl
@[simp] theorem permute_mode (s : State) : (permute s).mode = s.mode := rfl
@[simp] theorem permute_phase (s : State) : (permute s).phase = s.phase := rfl
@[simp] theorem permute_err (s : State) : (permute s).err = s.err := rfl
@[simp] theorem permute_resp (s : State) : (permute s).resp = s.resp := rfl
@[simp] theorem permute_pending (s : State) : (permute s).pending = s.pending := rfl
@[simp] theorem permute_host (s : State) : (permute s).host = s.host := rfl
@[simp] theorem permute_draws (s : State) : (permute s).draws = s.draws := rfl

/-! Moving the lane pointer: `setWordIndex`. -/

@[simp] theorem setWordIndex_A (i : BitVec 5) (s : State) : (setWordIndex i s).A = s.A := rfl
@[simp] theorem setWordIndex_saved (i : BitVec 5) (s : State) : (setWordIndex i s).saved = s.saved := rfl
@[simp] theorem setWordIndex_byteIndex (i : BitVec 5) (s : State) : (setWordIndex i s).byteIndex = s.byteIndex := rfl
@[simp] theorem setWordIndex_wordIndex (i : BitVec 5) (s : State) : (setWordIndex i s).wordIndex = i := rfl
@[simp] theorem setWordIndex_capacityWords (i : BitVec 5) (s : State) : (setWordIndex i s).capacityWords = s.capacityWords := rfl
@[simp] theorem setWordIndex_mode (i : BitVec 5) (s : State) : (setWordIndex i s).mode = s.mode := rfl
@[simp] theorem setWordIndex_phase (i : BitVec 5) (s : State) : (setWordIndex i s).phase = s.phase := rfl
@[simp] theorem setWordIndex_err (i : BitVec 5) (s : State) : (setWordIndex i s).err = s.err := rfl
@[simp] theorem setWordIndex_resp (i : BitVec 5) (s : State) : (setWordIndex i s).resp = s.resp := rfl
@[simp] theorem setWordIndex_pending (i : BitVec 5) (s : State) : (setWordIndex i s).pending = s.pending := rfl
@[simp] theorem setWordIndex_host (i : BitVec 5) (s : State) : (setWordIndex i s).host = s.host := rfl
@[simp] theorem setWordIndex_draws (i : BitVec 5) (s : State) : (setWordIndex i s).draws = s.draws := rfl

/-! Entering a phase: `setPhase`. -/

@[simp] theorem setPhase_A (p : Phase) (s : State) : (setPhase p s).A = s.A := rfl
@[simp] theorem setPhase_saved (p : Phase) (s : State) : (setPhase p s).saved = s.saved := rfl
@[simp] theorem setPhase_byteIndex (p : Phase) (s : State) : (setPhase p s).byteIndex = s.byteIndex := rfl
@[simp] theorem setPhase_wordIndex (p : Phase) (s : State) : (setPhase p s).wordIndex = s.wordIndex := rfl
@[simp] theorem setPhase_capacityWords (p : Phase) (s : State) : (setPhase p s).capacityWords = s.capacityWords := rfl
@[simp] theorem setPhase_mode (p : Phase) (s : State) : (setPhase p s).mode = s.mode := rfl
@[simp] theorem setPhase_phase (p : Phase) (s : State) : (setPhase p s).phase = p := rfl
@[simp] theorem setPhase_err (p : Phase) (s : State) : (setPhase p s).err = s.err := rfl
@[simp] theorem setPhase_resp (p : Phase) (s : State) : (setPhase p s).resp = s.resp := rfl
@[simp] theorem setPhase_pending (p : Phase) (s : State) : (setPhase p s).pending = s.pending := rfl
@[simp] theorem setPhase_host (p : Phase) (s : State) : (setPhase p s).host = s.host := rfl
@[simp] theorem setPhase_draws (p : Phase) (s : State) : (setPhase p s).draws = s.draws := rfl

/-! Setting the domain mode: `setMode`. -/

@[simp] theorem setMode_A (m : BitVec 1) (s : State) : (setMode m s).A = s.A := rfl
@[simp] theorem setMode_saved (m : BitVec 1) (s : State) : (setMode m s).saved = s.saved := rfl
@[simp] theorem setMode_byteIndex (m : BitVec 1) (s : State) : (setMode m s).byteIndex = s.byteIndex := rfl
@[simp] theorem setMode_wordIndex (m : BitVec 1) (s : State) : (setMode m s).wordIndex = s.wordIndex := rfl
@[simp] theorem setMode_capacityWords (m : BitVec 1) (s : State) : (setMode m s).capacityWords = s.capacityWords := rfl
@[simp] theorem setMode_mode (m : BitVec 1) (s : State) : (setMode m s).mode = m := rfl
@[simp] theorem setMode_phase (m : BitVec 1) (s : State) : (setMode m s).phase = s.phase := rfl
@[simp] theorem setMode_err (m : BitVec 1) (s : State) : (setMode m s).err = s.err := rfl
@[simp] theorem setMode_resp (m : BitVec 1) (s : State) : (setMode m s).resp = s.resp := rfl
@[simp] theorem setMode_pending (m : BitVec 1) (s : State) : (setMode m s).pending = s.pending := rfl
@[simp] theorem setMode_host (m : BitVec 1) (s : State) : (setMode m s).host = s.host := rfl
@[simp] theorem setMode_draws (m : BitVec 1) (s : State) : (setMode m s).draws = s.draws := rfl

/-! The host side of the interface: `setHostSide`. -/

@[simp] theorem setHostSide_A (rest : List Input) (h : Option Nat) (s : State) : (setHostSide rest h s).A = s.A := rfl
@[simp] theorem setHostSide_saved (rest : List Input) (h : Option Nat) (s : State) : (setHostSide rest h s).saved = s.saved := rfl
@[simp] theorem setHostSide_byteIndex (rest : List Input) (h : Option Nat) (s : State) :
    (setHostSide rest h s).byteIndex = s.byteIndex :=
    rfl
@[simp] theorem setHostSide_wordIndex (rest : List Input) (h : Option Nat) (s : State) :
    (setHostSide rest h s).wordIndex = s.wordIndex :=
    rfl
@[simp] theorem setHostSide_capacityWords (rest : List Input) (h : Option Nat) (s : State) :
    (setHostSide rest h s).capacityWords = s.capacityWords :=
    rfl
@[simp] theorem setHostSide_mode (rest : List Input) (h : Option Nat) (s : State) : (setHostSide rest h s).mode = s.mode := rfl
@[simp] theorem setHostSide_phase (rest : List Input) (h : Option Nat) (s : State) : (setHostSide rest h s).phase = s.phase := rfl
@[simp] theorem setHostSide_err (rest : List Input) (h : Option Nat) (s : State) : (setHostSide rest h s).err = s.err := rfl
@[simp] theorem setHostSide_resp (rest : List Input) (h : Option Nat) (s : State) : (setHostSide rest h s).resp = s.resp := rfl
@[simp] theorem setHostSide_pending (rest : List Input) (h : Option Nat) (s : State) :
    (setHostSide rest h s).pending = rest :=
    rfl
@[simp] theorem setHostSide_host (rest : List Input) (h : Option Nat) (s : State) : (setHostSide rest h s).host = h := rfl
@[simp] theorem setHostSide_draws (rest : List Input) (h : Option Nat) (s : State) : (setHostSide rest h s).draws = s.draws := rfl

/-! What a reset leaves: `PHASE` and `ERR` have the values the spec gives (R35), and nothing is answered or yet to come. -/

@[simp] theorem drawn_phase (n : Nat) : (State.drawn n).phase = .uninit := rfl
@[simp] theorem drawn_err (n : Nat) : (State.drawn n).err = 0#1 := rfl
@[simp] theorem drawn_resp (n : Nat) : (State.drawn n).resp = none := rfl
@[simp] theorem drawn_draws (n : Nat) : (State.drawn n).draws = n := rfl
@[simp] theorem reset_phase : State.reset.phase = .uninit := rfl
@[simp] theorem reset_err : State.reset.err = 0#1 := rfl

/-! Taking a command: `takeCommand`. -/

@[simp] theorem takeCommand_A (h : Nat) (rest : List Input) (s : State) : (takeCommand h rest s).A = s.A := by
  simp [takeCommand]
@[simp] theorem takeCommand_saved (h : Nat) (rest : List Input) (s : State) : (takeCommand h rest s).saved = s.saved := by
  simp [takeCommand]
@[simp] theorem takeCommand_byteIndex (h : Nat) (rest : List Input) (s : State) :
    (takeCommand h rest s).byteIndex = s.byteIndex :=
    rfl
@[simp] theorem takeCommand_wordIndex (h : Nat) (rest : List Input) (s : State) :
    (takeCommand h rest s).wordIndex = s.wordIndex :=
    rfl
@[simp] theorem takeCommand_capacityWords (h : Nat) (rest : List Input) (s : State) :
    (takeCommand h rest s).capacityWords = s.capacityWords :=
    rfl
@[simp] theorem takeCommand_mode (h : Nat) (rest : List Input) (s : State) : (takeCommand h rest s).mode = s.mode := by
  simp [takeCommand]
@[simp] theorem takeCommand_phase (h : Nat) (rest : List Input) (s : State) : (takeCommand h rest s).phase = s.phase := by
  simp [takeCommand]
@[simp] theorem takeCommand_err (h : Nat) (rest : List Input) (s : State) : (takeCommand h rest s).err = s.err := by
  simp [takeCommand]
@[simp] theorem takeCommand_resp (h : Nat) (rest : List Input) (s : State) : (takeCommand h rest s).resp = s.resp := by
  simp [takeCommand]
@[simp] theorem takeCommand_pending (h : Nat) (rest : List Input) (s : State) : (takeCommand h rest s).pending = rest := by
  simp [takeCommand]
@[simp] theorem takeCommand_host (h : Nat) (rest : List Input) (s : State) : (takeCommand h rest s).host = some h := by
  simp [takeCommand]
@[simp] theorem takeCommand_draws (h : Nat) (rest : List Input) (s : State) : (takeCommand h rest s).draws = s.draws := by
  simp [takeCommand]

/-! Taking a reset: `takeReset`. -/

@[simp] theorem takeReset_A (rest : List Input) (s : State) : (takeReset rest s).A = (State.drawn (s.draws + 1)).A := by
  simp [takeReset]
@[simp] theorem takeReset_saved (rest : List Input) (s : State) :
    (takeReset rest s).saved = (State.drawn (s.draws + 1)).saved :=
    rfl
@[simp] theorem takeReset_byteIndex (rest : List Input) (s : State) :
    (takeReset rest s).byteIndex = (State.drawn (s.draws + 1)).byteIndex :=
    rfl
@[simp] theorem takeReset_wordIndex (rest : List Input) (s : State) :
    (takeReset rest s).wordIndex = (State.drawn (s.draws + 1)).wordIndex :=
    rfl
@[simp] theorem takeReset_capacityWords (rest : List Input) (s : State) :
    (takeReset rest s).capacityWords = (State.drawn (s.draws + 1)).capacityWords :=
    rfl
@[simp] theorem takeReset_mode (rest : List Input) (s : State) : (takeReset rest s).mode = (State.drawn (s.draws + 1)).mode := by
  simp [takeReset]
@[simp] theorem takeReset_phase (rest : List Input) (s : State) : (takeReset rest s).phase = .uninit := by
  simp [takeReset]
@[simp] theorem takeReset_err (rest : List Input) (s : State) : (takeReset rest s).err = 0#1 := by
  simp [takeReset]
@[simp] theorem takeReset_resp (rest : List Input) (s : State) : (takeReset rest s).resp = none := by
  simp [takeReset]
@[simp] theorem takeReset_pending (rest : List Input) (s : State) : (takeReset rest s).pending = rest := by
  simp [takeReset]
@[simp] theorem takeReset_host (rest : List Input) (s : State) : (takeReset rest s).host = s.host := by
  simp [takeReset]
@[simp] theorem takeReset_draws (rest : List Input) (s : State) : (takeReset rest s).draws = s.draws + 1 := by
  simp [takeReset]

/-- Two states that agree on every field are equal. -/
theorem State.ext_fields {s t : State} (hA : s.A = t.A) (hsaved : s.saved = t.saved) (hbi : s.byteIndex = t.byteIndex)
    (hwi : s.wordIndex = t.wordIndex) (hcap : s.capacityWords = t.capacityWords) (hmode : s.mode = t.mode)
    (hphase : s.phase = t.phase) (herr : s.err = t.err) (hresp : s.resp = t.resp) (hpend : s.pending = t.pending)
    (hhost : s.host = t.host) (hdraws : s.draws = t.draws) : s = t := by
  cases s
  cases t
  simp_all

/-- `rateWords` depends on `capacityWords` alone (R27). -/
theorem rateWords_congr {s t : State} (h : s.capacityWords = t.capacityWords) : s.rateWords = t.rateWords := by
  simp only [State.rateWords, h]

/-- `outputBits` depends on `capacityWords` alone (R27). -/
theorem outputBits_congr {s t : State} (h : s.capacityWords = t.capacityWords) : s.outputBits = t.outputBits := by
  simp only [State.outputBits, h]

end Sys2Proof.Machine
end

