-- ==== Sys2Proof/Laws/Ops.lean ====
section
/-! SUPPORT. What each shared operation can do, said once: the advance, buffering bytes, completing a word, and absorption as a
whole write only `A`, `saved`, `byteIndex` and `wordIndex`; raising an error writes only `ERR` and the response. -/

namespace Sys2Proof.Machine

/-- `t` differs from `s` at most in the sponge state and the absorption buffer: what R141 lets absorption write. -/
structure BufferOnly (s t : State) : Prop where
  capacityWords : t.capacityWords = s.capacityWords
  mode : t.mode = s.mode
  phase : t.phase = s.phase
  err : t.err = s.err
  resp : t.resp = s.resp
  pending : t.pending = s.pending
  host : t.host = s.host
  draws : t.draws = s.draws

theorem BufferOnly.refl (s : State) : BufferOnly s s := ⟨rfl, rfl, rfl, rfl, rfl, rfl, rfl, rfl⟩

theorem BufferOnly.trans {s t u : State} (h : BufferOnly s t) (k : BufferOnly t u) : BufferOnly s u :=
  ⟨k.1.trans h.1, k.2.trans h.2, k.3.trans h.3, k.4.trans h.4, k.5.trans h.5, k.6.trans h.6, k.7.trans h.7,
    k.8.trans h.8⟩

/-- The advance at the end of a block (R142). -/
theorem advance_boundary {s : State} (h : s.wordIndex.toNat + 1 = s.rateWords) :
    advance s = setWordIndex 0 (permute s) := if_pos h

/-- The advance within a block (R142). -/
theorem advance_within {s : State} (h : s.wordIndex.toNat + 1 ≠ s.rateWords) :
    advance s = setWordIndex (s.wordIndex + 1) s := if_neg h

theorem advance_bufferOnly (s : State) : BufferOnly s (advance s) := by
  unfold advance
  split <;> exact ⟨rfl, rfl, rfl, rfl, rfl, rfl, rfl, rfl⟩

@[simp] theorem advance_saved (s : State) : (advance s).saved = s.saved := by unfold advance; split <;> rfl

@[simp] theorem advance_byteIndex (s : State) : (advance s).byteIndex = s.byteIndex := by unfold advance; split <;> rfl

theorem xorLane_bufferOnly (i : Nat) (w : Lane) (s : State) : BufferOnly s (xorLane i w s) :=
  ⟨rfl, rfl, rfl, rfl, rfl, rfl, rfl, rfl⟩

theorem clearBuffer_bufferOnly (s : State) : BufferOnly s (clearBuffer s) :=
  ⟨rfl, rfl, rfl, rfl, rfl, rfl, rfl, rfl⟩

theorem bufferByte_bufferOnly (b : Byte) (s : State) : BufferOnly s (bufferByte b s) :=
  ⟨rfl, rfl, rfl, rfl, rfl, rfl, rfl, rfl⟩

theorem bufferBytes_bufferOnly (X : List Byte) (s : State) : BufferOnly s (bufferBytes X s) := by
  induction X generalizing s with
  | nil => exact .refl s
  | cons b bs ih => exact (bufferByte_bufferOnly b s).trans (ih _)

/-- Buffering writes no lane (R141). -/
@[simp] theorem bufferBytes_A (X : List Byte) (s : State) : (bufferBytes X s).A = s.A := by
  induction X generalizing s with
  | nil => rfl
  | cons b bs ih => exact ih (bufferByte b s)

/-- Buffering does not move the lane pointer (R141). -/
@[simp] theorem bufferBytes_wordIndex (X : List Byte) (s : State) : (bufferBytes X s).wordIndex = s.wordIndex := by
  induction X generalizing s with
  | nil => rfl
  | cons b bs ih => exact ih (bufferByte b s)

theorem bufferBytes_append (X Y : List Byte) (s : State) : bufferBytes (X ++ Y) s = bufferBytes Y (bufferBytes X s) := by
  induction X generalizing s with
  | nil => rfl
  | cons b bs ih => exact ih (bufferByte b s)

/-- What a failed command leaves (R203): everything but `ERR` and the response. -/
theorem raise_eq (e : CommandError) (s : State) :
    raise e s = { s with err := errAfter e.status s.err, resp := some ⟨e.status, errAfter e.status s.err, 0⟩ } := rfl

@[simp] theorem errAfter_usage (e : BitVec 1) : errAfter .usageError e = 1#1 := rfl
@[simp] theorem errAfter_illegal (e : BitVec 1) : errAfter .illegalCommand e = 1#1 := rfl
@[simp] theorem errAfter_config (e : BitVec 1) : errAfter .configError e = e := rfl
@[simp] theorem errAfter_ok (e : BitVec 1) : errAfter .ok e = e := rfl

end Sys2Proof.Machine
end

