-- ==== Sys2Proof/Laws/Absorb.lean ====
section
/-! SUPPORT. What absorption can do (R140 to R143): it writes the sponge state and the absorption buffer and nothing else. -/

namespace Sys2Proof.Machine

theorem completeWord_bufferOnly (s : State) : BufferOnly s (completeWord s) := by
  unfold completeWord
  exact ((xorLane_bufferOnly _ _ s).trans (clearBuffer_bufferOnly _)).trans (advance_bufferOnly _)

/-- Completing a word empties the buffer (R141 step 2). -/
@[simp] theorem completeWord_saved (s : State) : (completeWord s).saved = 0 := by simp [completeWord]

@[simp] theorem completeWord_byteIndex (s : State) : (completeWord s).byteIndex = 0 := by simp [completeWord]

theorem absorbWord_bufferOnly (w : Lane) (s : State) : BufferOnly s (absorbWord w s) :=
  (xorLane_bufferOnly _ w s).trans (advance_bufferOnly _)

/-- A whole word goes past the buffer (R141 step 3). -/
@[simp] theorem absorbWord_saved (w : Lane) (s : State) : (absorbWord w s).saved = s.saved := by simp [absorbWord]

@[simp] theorem absorbWord_byteIndex (w : Lane) (s : State) : (absorbWord w s).byteIndex = s.byteIndex := by
  simp [absorbWord]

theorem absorbWords_bufferOnly (k : Nat) (X : List Byte) (s : State) : BufferOnly s (absorbWords k X s) := by
  induction k generalizing X s with
  | zero => exact bufferBytes_bufferOnly X s
  | succ k ih => exact (absorbWord_bufferOnly _ s).trans (ih _ _)

/-- Absorption writes the sponge state and the absorption buffer and nothing else (R141). -/
theorem absorb_bufferOnly (X : List Byte) (s : State) : BufferOnly s (absorb X s) := by
  unfold absorb
  split
  · exact bufferBytes_bufferOnly X s
  · refine BufferOnly.trans ?_ (absorbWords_bufferOnly _ _ _)
    split
    · exact (bufferBytes_bufferOnly _ s).trans (completeWord_bufferOnly _)
    · exact .refl s

theorem absorbByte_bufferOnly (b : Byte) (s : State) : BufferOnly s (absorbByte b s) := by
  unfold absorbByte
  split
  · exact (bufferByte_bufferOnly b s).trans (completeWord_bufferOnly _)
  · exact bufferByte_bufferOnly b s

theorem absorbSerial_bufferOnly (X : List Byte) (s : State) : BufferOnly s (absorbSerial X s) := by
  induction X generalizing s with
  | nil => exact .refl s
  | cons b bs ih => exact (absorbByte_bufferOnly b s).trans (ih _)

/-- The byte-serial form takes a sequence apart (R143). -/
theorem absorbSerial_append (X Y : List Byte) (s : State) :
    absorbSerial (X ++ Y) s = absorbSerial Y (absorbSerial X s) := List.foldl_append

@[simp] theorem absorbSerial_nil (s : State) : absorbSerial [] s = s := rfl

@[simp] theorem absorbSerial_cons (b : Byte) (X : List Byte) (s : State) :
    absorbSerial (b :: X) s = absorbSerial X (absorbByte b s) := rfl

/-! ## What the buffer holds -/

/-- A byte that does not complete the word is counted (R141). -/
theorem bufferByte_counts (b : Byte) (s : State) (h : s.byteIndex.toNat + 1 < 8) :
    (bufferByte b s).byteIndex.toNat = s.byteIndex.toNat + 1 := by
  simp
  omega

/-- Buffering bytes up to a whole word: they stand above the bytes already there, and are counted (R23, R141). -/
theorem bufferBytes_eq (X : List Byte) (s : State) (h : s.byteIndex.toNat + X.length ≤ 8) :
    bufferBytes X s = { s with
      saved := s.saved ||| packLe X <<< (8 * s.byteIndex.toNat), byteIndex := s.byteIndex + BitVec.ofNat 3 X.length } := by
  induction X generalizing s with
  | nil => simp [bufferBytes, packLe]
  | cons b bs ih =>
    simp only [List.length_cons] at h
    rw [bufferBytes]
    by_cases hb : s.byteIndex.toNat + 1 < 8
    · rw [ih _ (by rw [bufferByte_counts b s hb]; omega), bufferByte_counts b s hb]
      apply State.ext_fields <;> try rfl
      · simp only [bufferByte_saved, packLe, BitVec.shiftLeft_or_distrib]
        rw [BitVec.or_assoc, ← BitVec.shiftLeft_add]
        congr 3; omega
      · simp only [bufferByte_byteIndex, List.length_cons]
        apply BitVec.eq_of_toNat_eq; simp; omega
    · have : bs = [] := by cases bs with | nil => rfl | cons => simp at h; omega
      subst this
      apply State.ext_fields <;> try rfl
      simp [bufferBytes, packLe]

/-- Byte by byte, a sequence that does not complete the word is buffered (R143). -/
theorem absorbSerial_short (X : List Byte) (s : State) (h : s.byteIndex.toNat + X.length < 8) :
    absorbSerial X s = bufferBytes X s := by
  induction X generalizing s with
  | nil => rfl
  | cons b bs ih =>
    simp only [List.length_cons] at h
    rw [absorbSerial_cons, absorbByte, if_neg (by omega), bufferBytes, ih]
    rw [bufferByte_counts b s (by omega)]; omega

/-- Byte by byte, a sequence that just completes the word is buffered and the word is absorbed (R143). -/
theorem absorbSerial_complete (X : List Byte) (s : State) (h : s.byteIndex.toNat + X.length = 8) :
    absorbSerial X s = completeWord (bufferBytes X s) := by
  induction X generalizing s with
  | nil => have := s.byteIndex.isLt; simp at h; omega
  | cons b bs ih =>
    simp only [List.length_cons] at h
    rw [absorbSerial_cons, absorbByte]
    by_cases hb : s.byteIndex.toNat + 1 = 8
    · have : bs = [] := by cases bs with | nil => rfl | cons => simp at h; omega
      subst this
      rw [if_pos hb]; rfl
    · rw [if_neg hb, ih]; rfl
      rw [bufferByte_counts b s (by omega)]; omega

/-! ## What absorption reads, and the invariants it keeps -/

/-- The state with another `MODE` and another response. -/
def dress (m : BitVec 1) (r : Option Response) (s : State) : State := { s with mode := m, resp := r }

/-- The advance reads neither (R142). -/
theorem advance_dress (m : BitVec 1) (r : Option Response) (s : State) : advance (dress m r s) = dress m r (advance s) := by
  by_cases hx : s.wordIndex.toNat + 1 = s.rateWords
  · rw [advance_boundary hx, advance_boundary (s := dress m r s) hx]; rfl
  · rw [advance_within hx, advance_within (s := dress m r s) hx]; rfl

/-- A byte absorbed reads neither (R28, R143). -/
theorem absorbByte_dress (b : Byte) (m : BitVec 1) (r : Option Response) (s : State) :
    absorbByte b (dress m r s) = dress m r (absorbByte b s) := by
  by_cases h : s.byteIndex.toNat + 1 = 8
  · rw [absorbByte, absorbByte, if_pos h, if_pos (show (dress m r s).byteIndex.toNat + 1 = 8 from h)]
    rw [completeWord, completeWord, ← advance_dress]; rfl
  · rw [absorbByte, absorbByte, if_neg h, if_neg (show ¬ (dress m r s).byteIndex.toNat + 1 = 8 from h)]; rfl

/-- Absorption reads neither (R28). -/
theorem absorbSerial_dress (X : List Byte) (m : BitVec 1) (r : Option Response) (s : State) :
    absorbSerial X (dress m r s) = dress m r (absorbSerial X s) := by
  induction X generalizing s with
  | nil => rfl
  | cons b bs ih => rw [absorbSerial_cons, absorbSerial_cons, absorbByte_dress, ih]

/-- A byte absorbed leaves `saved` clean (R26). -/
theorem absorbByte_clean (b : Byte) (s : State) (hc : s.SavedClean) : (absorbByte b s).SavedClean := by
  unfold absorbByte
  split
  · simp [State.SavedClean]
  · rename_i h
    have hlt := s.byteIndex.isLt
    unfold State.SavedClean
    rw [bufferByte_counts b s (by omega)]
    ext k hk
    have h1 := congrArg (fun v => v.getLsbD (k+8)) hc
    simp only [BitVec.getLsbD_ushiftRight] at h1
    simp only [bufferByte_saved, BitVec.getElem_ushiftRight, BitVec.getLsbD_or, BitVec.getLsbD_shiftLeft, zextByte, BitVec.zeroExtend_eq_setWidth, BitVec.getLsbD_setWidth]
    rw [show 8 * (s.byteIndex.toNat+1) + k = 8 * s.byteIndex.toNat + (k+8) by omega, h1]
    simp

/-- A byte absorbed leaves `wordIndex` in the rate (R25). -/
theorem absorbByte_position (b : Byte) (s : State) (h : s.wordIndex.toNat < s.rateWords) :
    (absorbByte b s).wordIndex.toNat < (absorbByte b s).rateWords := by
  have hadv : ∀ u : State, u.wordIndex.toNat < u.rateWords → (advance u).wordIndex.toNat < (advance u).rateWords := by
    intro u h
    have hu : u.rateWords ≤ 25 := by simp [State.rateWords]
    rw [rateWords_congr (advance_bufferOnly u).capacityWords]
    by_cases hx : u.wordIndex.toNat + 1 = u.rateWords
    · rw [advance_boundary hx]; simp; omega
    · rw [advance_within hx]; simp; omega
  unfold absorbByte
  split
  · unfold completeWord
    apply hadv
    simpa [State.rateWords] using h
  · simpa [State.rateWords] using h

/-- Absorption leaves `saved` clean (R26). -/
theorem absorbSerial_clean (X : List Byte) (s : State) (hc : s.SavedClean) : (absorbSerial X s).SavedClean := by
  induction X generalizing s with
  | nil => exact hc
  | cons b bs ih => exact ih _ (absorbByte_clean b s hc)

/-- Absorption leaves `wordIndex` in the rate (R25). -/
theorem absorbSerial_position (X : List Byte) (s : State) (h : s.wordIndex.toNat < s.rateWords) :
    (absorbSerial X s).wordIndex.toNat < (absorbSerial X s).rateWords := by
  induction X generalizing s with
  | nil => exact h
  | cons b bs ih => exact ih _ (absorbByte_position b s h)

end Sys2Proof.Machine
end

