-- ==== Sys2Proof/Laws/Decode.lean ====
section
/-! SUPPORT. The reserved bits of each format as a mask of the command word (R71), and the rows of the opcode table against the
decoder's own checks (R78). -/

namespace Sys2Proof

/-- A slice of a word is zero when each of its bits is. -/
theorem extractLsb'_eq_zero_iff (cmd : BitVec 32) (a n : Nat) :
    cmd.extractLsb' a n = 0#n ↔ ∀ k, k < n → cmd.getLsbD (a + k) = false := by
  constructor
  · intro h k hk
    simpa [hk] using congrArg (fun v => v.getLsbD k) h
  · intro h
    ext k hk
    simpa [hk] using h k hk

/-- A masked word is zero when each bit under the mask is. -/
theorem and_eq_zero_iff (cmd m : BitVec 32) :
    cmd &&& m = 0#32 ↔ ∀ k, k < 32 → m.getLsbD k = true → cmd.getLsbD k = false := by
  constructor
  · intro h k _ hm
    simpa [hm] using congrArg (fun v => v.getLsbD k) h
  · intro h
    ext k hk
    have := h k hk
    rw [← BitVec.getLsbD_eq_getElem, BitVec.getLsbD_and]
    cases hm : m.getLsbD k <;> simp_all

/-- Format S: the mask of its reserved bits. -/
theorem reservedClearS_iff (cmd : BitVec 32) : reservedClearS cmd = true ↔ cmd &&& 0x0000FFF0#32 = 0#32 := by
  rw [reservedClearS, beq_iff_eq, extractLsb'_eq_zero_iff, and_eq_zero_iff]
  constructor
  · intro h k hk hm
    have h1 := h (k - 4)
    interval_cases k <;> first | exact absurd hm (by decide) | exact h1 (by decide)
  · intro h k hk
    exact h (4 + k) (by omega) (by interval_cases k <;> decide)

/-- Format L: the mask of its reserved bits. -/
theorem reservedClearL_iff (cmd : BitVec 32) : reservedClearL cmd = true ↔ cmd &&& 0xFFFFFF00#32 = 0#32 := by
  rw [reservedClearL, beq_iff_eq, extractLsb'_eq_zero_iff, and_eq_zero_iff]
  constructor
  · intro h k hk hm
    have h1 := h (k - 8)
    interval_cases k <;> first | exact absurd hm (by decide) | exact h1 (by decide)
  · intro h k hk
    exact h (8 + k) (by omega) (by interval_cases k <;> decide)

/-- Format N: the mask of its reserved bits. -/
theorem reservedClearN_iff (cmd : BitVec 32) : reservedClearN cmd = true ↔ cmd &&& 0xFFFFFFF0#32 = 0#32 := by
  rw [reservedClearN, beq_iff_eq, extractLsb'_eq_zero_iff, and_eq_zero_iff]
  constructor
  · intro h k hk hm
    have h1 := h (k - 4)
    interval_cases k <;> first | exact absurd hm (by decide) | exact h1 (by decide)
  · intro h k hk
    exact h (4 + k) (by omega) (by interval_cases k <;> decide)

/-- Format M: the mask of its reserved bits. -/
theorem reservedClearM_iff (cmd : BitVec 32) : reservedClearM cmd = true ↔ cmd &&& 0xFFFEFFF0#32 = 0#32 := by
  rw [reservedClearM, Bool.and_eq_true, beq_iff_eq, beq_iff_eq, extractLsb'_eq_zero_iff, extractLsb'_eq_zero_iff,
    and_eq_zero_iff]
  constructor
  · rintro ⟨h, h'⟩ k hk hm
    have h1 := h (k - 17)
    have h2 := h' (k - 4)
    interval_cases k <;> first | exact absurd hm (by decide) | exact h1 (by decide) | exact h2 (by decide)
  · intro h
    exact ⟨fun k hk => h (17 + k) (by omega) (by interval_cases k <;> decide),
      fun k hk => h (4 + k) (by omega) (by interval_cases k <;> decide)⟩

/-- Format X: the mask of its reserved bits. -/
theorem reservedClearX_iff (cmd : BitVec 32) : reservedClearX cmd = true ↔ cmd &&& 0xFFFF00F0#32 = 0#32 := by
  rw [reservedClearX, Bool.and_eq_true, beq_iff_eq, beq_iff_eq, extractLsb'_eq_zero_iff, extractLsb'_eq_zero_iff,
    and_eq_zero_iff]
  constructor
  · rintro ⟨h, h'⟩ k hk hm
    have h1 := h (k - 16)
    have h2 := h' (k - 4)
    interval_cases k <;> first | exact absurd hm (by decide) | exact h1 (by decide) | exact h2 (by decide)
  · intro h
    exact ⟨fun k hk => h (16 + k) (by omega) (by interval_cases k <;> decide),
      fun k hk => h (4 + k) (by omega) (by interval_cases k <;> decide)⟩

end Sys2Proof
end

