-- ==== Sys2Proof/Laws/Exec.lean ====
section
/-! SUPPORT. One inversion lemma per command: everything its meaning can answer, with the guards, so that no later proof unfolds a
meaning. -/

namespace Sys2Proof.Machine

/-- INIT (R130): a fresh context, or CONFIG_ERROR. -/
theorem exec_init_cases (size : BitVec 16) (s : State) :
    (supportedSize size = true ∧ exec (.init size) s = .next (respond .ok 0 (freshContext size s))) ∨
    (supportedSize size = false ∧ exec (.init size) s = .next (raise .configError s)) := by
  cases h : supportedSize size
  · exact .inr ⟨rfl, by simp [exec, execInit, h]⟩
  · exact .inl ⟨rfl, by simp [exec, execInit, h]⟩

/-- SETMODE (R133) has one outcome. -/
theorem exec_setmode (m : BitVec 1) (s : State) :
    exec (.setmode m) s = .next (respond .ok (zextBit s.mode) (setMode m s)) := rfl

/-- ABSORB (R145): an illegal length, the wrong phase, a lane that does not exist, or absorption. -/
theorem exec_absorb_cases (len : BitVec 4) (data : BitVec 64) (s : State) :
    (8 < len.toNat ∧ exec (.absorb len data) s = .next (raise .illegalCommand s)) ∨
    (len.toNat ≤ 8 ∧ s.phase ≠ .absorbing ∧ exec (.absorb len data) s = .next (raise .usageError s)) ∨
    (len.toNat ≤ 8 ∧ s.phase = .absorbing ∧ 8 ≤ s.byteIndex.toNat + len.toNat ∧ 25 ≤ s.wordIndex.toNat ∧
      exec (.absorb len data) s = .fault (.noSuchLane s.wordIndex.toNat)) ∨
    (len.toNat ≤ 8 ∧ s.phase = .absorbing ∧ (8 ≤ s.byteIndex.toNat + len.toNat → s.wordIndex.toNat < 25) ∧
      exec (.absorb len data) s = .next (respond .ok 0 (absorb (inputBytes len.toNat data) s))) := by
  simp only [exec, execAbsorb, completesWord, Bool.and_eq_true, decide_eq_true_eq]
  by_cases h1 : 8 < len.toNat
  · exact .inl ⟨h1, if_pos h1⟩
  rw [if_neg h1]
  have h1' : len.toNat ≤ 8 := by omega
  by_cases h2 : s.phase = .absorbing
  · rw [if_neg (not_not_intro h2)]
    by_cases h3 : 8 ≤ s.byteIndex.toNat + len.toNat ∧ 25 ≤ s.wordIndex.toNat
    · exact .inr (.inr (.inl ⟨h1', h2, h3.1, h3.2, if_pos h3⟩))
    · exact .inr (.inr (.inr ⟨h1', h2, by omega, if_neg h3⟩))
  · exact .inr (.inl ⟨h1', h2, if_pos h2⟩)

/-- FINAL (R163): the wrong phase, a lane that does not exist, or finalize. -/
theorem exec_final_cases (s : State) :
    (s.phase ≠ .absorbing ∧ exec .final s = .next (raise .usageError s)) ∨
    (s.phase = .absorbing ∧ 25 ≤ s.wordIndex.toNat ∧ exec .final s = .fault (.noSuchLane s.wordIndex.toNat)) ∨
    (s.phase = .absorbing ∧ s.wordIndex.toNat < 25 ∧ 25 ≤ s.capacityWords.toNat ∧
      exec .final s = .fault (.noSuchLane (25 - (s.capacityWords.toNat : Int) - 1))) ∨
    (s.phase = .absorbing ∧ s.wordIndex.toNat < 25 ∧ s.capacityWords.toNat < 25 ∧
      exec .final s = .next (respond .ok 0 (setPhase .finalized (finalize s)))) := by
  simp only [exec, execFinal]
  by_cases h1 : s.phase = .absorbing
  · rw [if_neg (not_not_intro h1)]
    by_cases h2 : 25 ≤ s.wordIndex.toNat
    · exact .inr (.inl ⟨h1, h2, if_pos h2⟩)
    rw [if_neg h2]
    by_cases h3 : 25 ≤ s.capacityWords.toNat
    · exact .inr (.inr (.inl ⟨h1, by omega, h3, if_pos h3⟩))
    · exact .inr (.inr (.inr ⟨h1, by omega, by omega, if_neg h3⟩))
  · exact .inl ⟨h1, if_pos h1⟩

/-- RDBYTE (R165): refused, or the digest byte; the state is not written. -/
theorem exec_rdbyte_cases (idx : BitVec 8) (s : State) :
    ((s.phase ≠ .finalized ∨ s.outputBits / 8 ≤ idx.toNat) ∧ exec (.rdbyte idx) s = .next (raise .usageError s)) ∨
    (s.phase = .finalized ∧ idx.toNat < s.outputBits / 8 ∧
      exec (.rdbyte idx) s = .next (respond .ok (zextByte (stateByte s.A idx.toNat)) s)) := by
  simp only [exec, execRdbyte]
  by_cases h : s.phase ≠ .finalized ∨ s.outputBits / 8 ≤ idx.toNat
  · exact .inl ⟨h, if_pos h⟩
  · rw [not_or, not_not, Nat.not_le] at h
    exact .inr ⟨h.1, h.2, if_neg (by simp [h.1, h.2])⟩

/-- RDLANE (R166): refused, or the digest lane; the state is not written. -/
theorem exec_rdlane_cases (idx : BitVec 8) (s : State) :
    ((s.phase ≠ .finalized ∨ s.outputBits / 64 ≤ idx.toNat) ∧ exec (.rdlane idx) s = .next (raise .usageError s)) ∨
    (s.phase = .finalized ∧ idx.toNat < s.outputBits / 64 ∧
      exec (.rdlane idx) s = .next (respond .ok (lane s.A idx.toNat) s)) := by
  simp only [exec, execRdlane]
  by_cases h : s.phase ≠ .finalized ∨ s.outputBits / 64 ≤ idx.toNat
  · exact .inl ⟨h, if_pos h⟩
  · rw [not_or, not_not, Nat.not_le] at h
    exact .inr ⟨h.1, h.2, if_neg (by simp [h.1, h.2])⟩

/-- Every next state a meaning can answer: an error with its cause (R200 to R203), or the command's own effect with its guards. -/
theorem exec_shape (i : Instr) (s t : State) (h : exec i s = .next t) :
    (∃ e, t = raise e s ∧ (e = .configError → ∃ size, i = .init size ∧ supportedSize size = false) ∧
      (e = .usageError → usageForbidden i s) ∧ (e = .illegalCommand → i.wellFormed = false)) ∨
    (∃ size, i = .init size ∧ supportedSize size = true ∧ t = respond .ok 0 (freshContext size s)) ∨
    (∃ m, i = .setmode m ∧ t = respond .ok (zextBit s.mode) (setMode m s)) ∨
    (∃ len data, i = .absorb len data ∧ len.toNat ≤ 8 ∧ s.phase = .absorbing ∧
      (8 ≤ s.byteIndex.toNat + len.toNat → s.wordIndex.toNat < 25) ∧
      t = respond .ok 0 (absorb (inputBytes len.toNat data) s)) ∨
    (i = .final ∧ s.phase = .absorbing ∧ s.wordIndex.toNat < 25 ∧ s.capacityWords.toNat < 25 ∧
      t = respond .ok 0 (setPhase .finalized (finalize s))) ∨
    (∃ idx, i = .rdbyte idx ∧ s.phase = .finalized ∧ idx.toNat < s.outputBits / 8 ∧
      t = respond .ok (zextByte (stateByte s.A idx.toNat)) s) ∨
    (∃ idx, i = .rdlane idx ∧ s.phase = .finalized ∧ idx.toNat < s.outputBits / 64 ∧
      t = respond .ok (lane s.A idx.toNat) s) := by
  cases i with
  | init size =>
    rcases exec_init_cases size s with ⟨h1, h'⟩ | ⟨h1, h'⟩ <;> rw [h'] at h <;> cases h
    · exact .inr (.inl ⟨_, rfl, h1, rfl⟩)
    · exact .inl ⟨_, rfl, fun _ => ⟨_, rfl, h1⟩, by simp, by simp⟩
  | setmode m =>
    rw [exec_setmode] at h
    cases h
    exact .inr (.inr (.inl ⟨_, rfl, rfl⟩))
  | absorb len data =>
    rcases exec_absorb_cases len data s with ⟨h1, h'⟩ | ⟨_, h1, h'⟩ | ⟨_, _, _, _, h'⟩ | ⟨h1, h2, h3, h'⟩ <;>
      rw [h'] at h <;> cases h
    · exact .inl ⟨_, rfl, by simp, by simp, fun _ => by simp [Instr.wellFormed]; omega⟩
    · refine .inl ⟨_, rfl, by simp, fun _ => ?_, by simp⟩
      simp only [usageForbidden]
      cases hp : s.phase <;> simp_all
    · exact .inr (.inr (.inr (.inl ⟨_, _, rfl, h1, h2, h3, rfl⟩)))
  | final =>
    rcases exec_final_cases s with ⟨h1, h'⟩ | ⟨_, _, h'⟩ | ⟨_, _, _, h'⟩ | ⟨h1, h2, h3, h'⟩ <;> rw [h'] at h <;> cases h
    · refine .inl ⟨_, rfl, by simp, fun _ => ?_, by simp⟩
      simp only [usageForbidden]
      cases hp : s.phase <;> simp_all
    · exact .inr (.inr (.inr (.inr (.inl ⟨rfl, h1, h2, h3, rfl⟩))))
  | rdbyte idx =>
    rcases exec_rdbyte_cases idx s with ⟨h1, h'⟩ | ⟨h1, h2, h'⟩ <;> rw [h'] at h <;> cases h
    · exact .inl ⟨_, rfl, by simp, fun _ => h1, by simp⟩
    · exact .inr (.inr (.inr (.inr (.inr (.inl ⟨_, rfl, h1, h2, rfl⟩)))))
  | rdlane idx =>
    rcases exec_rdlane_cases idx s with ⟨h1, h'⟩ | ⟨h1, h2, h'⟩ <;> rw [h'] at h <;> cases h
    · exact .inl ⟨_, rfl, by simp, fun _ => h1, by simp⟩
    · exact .inr (.inr (.inr (.inr (.inr (.inr ⟨_, rfl, h1, h2, rfl⟩)))))

/-- Every next state of a meaning carries a response (R70). -/
theorem exec_next_resp (i : Instr) (s t : State) (h : exec i s = .next t) : ∃ r, t.resp = some r := by
  rcases exec_shape i s t h with ⟨_, rfl, _⟩ | ⟨_, _, _, rfl⟩ | ⟨_, _, rfl⟩ | ⟨_, _, _, _, _, _, rfl⟩ | ⟨_, _, _, _, rfl⟩ |
    ⟨_, _, _, _, rfl⟩ | ⟨_, _, _, _, rfl⟩ <;> exact ⟨_, rfl⟩

end Sys2Proof.Machine
end

