-- ==== Sys2Proof/Laws/PerInstr.lean ====
section
/-! SUPPORT. Statements for every command, one lemma per constructor: the family `OpcodeOf` says which opcode a command's encoded
word carries in `cmd[3:0]` (R71, R78). -/

namespace Sys2Proof.Laws.OpcodeOf

/-- The opcode of each command (R78). -/
def opcode : Instr → Nat
  | .init _ => 0x1
  | .setmode _ => 0x2
  | .absorb _ _ => 0x3
  | .final => 0x4
  | .rdbyte _ => 0x5
  | .rdlane _ => 0x6

/-- The encoded word of a command carries the command's opcode. -/
def Statement (i : Instr) : Prop := (opcodeField (encode i).cmd).toNat = opcode i

theorem init (size : BitVec 16) : Statement (.init size) := by
  have h : opcodeField (encode (.init size)).cmd = 1#4 := by
    ext k hk; interval_cases k <;> simp [opcodeField, encode]
  simp [Statement, opcode, h]

theorem setmode (m : BitVec 1) : Statement (.setmode m) := by
  have h : opcodeField (encode (.setmode m)).cmd = 2#4 := by
    ext k hk; interval_cases k <;> simp [opcodeField, encode]
  simp [Statement, opcode, h]

theorem absorb (len : BitVec 4) (data : BitVec 64) : Statement (.absorb len data) := by
  have h : opcodeField (encode (.absorb len data)).cmd = 3#4 := by
    ext k hk; interval_cases k <;> simp [opcodeField, encode]
  simp [Statement, opcode, h]

theorem final : Statement .final := by
  simp [Statement, opcode, opcodeField, encode]

theorem rdbyte (idx : BitVec 8) : Statement (.rdbyte idx) := by
  have h : opcodeField (encode (.rdbyte idx)).cmd = 5#4 := by
    ext k hk; interval_cases k <;> simp [opcodeField, encode]
  simp [Statement, opcode, h]

theorem rdlane (idx : BitVec 8) : Statement (.rdlane idx) := by
  have h : opcodeField (encode (.rdlane idx)).cmd = 6#4 := by
    ext k hk; interval_cases k <;> simp [opcodeField, encode]
  simp [Statement, opcode, h]

end Sys2Proof.Laws.OpcodeOf
end

