-- ==== Sys2Proof/Laws/Sponge.lean ====
section
/-! SUPPORT. Absorption and finalize against the sponge construction: what a sequence absorbed into an empty buffer leaves, and
what finalize makes of it. -/

namespace Sys2Proof.Machine

/-- XORing no bytes changes nothing. -/
theorem xorBlock_nil (A : Lanes) : xorBlock A [] = A := by
  apply lanes_ext; intro i hi
  rw [xorBlock, lane_ofFn _ hi]; simp [packLe]

/-- A lane of a state with a block XORed in (R51). -/
theorem lane_xorBlock (A : Lanes) (B : List Byte) {i : Nat} (h : i < 25) :
    lane (xorBlock A B) i = lane A i ^^^ packLe ((B.drop (8 * i)).take 8) := by
  rw [xorBlock, lane_ofFn _ h]

/-- A block that grows by up to one word (R51). -/
theorem xorBlock_word (A : Lanes) (X Y : List Byte) (n : Nat) (hn : n < 25) (hX : X.length = 8 * n) (hY : Y.length ≤ 8) :
    xorBlock A (X ++ Y) = setLane (xorBlock A X) n (lane (xorBlock A X) n ^^^ packLe Y) := by
  apply lanes_ext; intro i hi
  rw [lane_setLane _ _ _ _ hi, lane_xorBlock _ _ hi, lane_xorBlock _ _ hi, lane_xorBlock _ _ hn]
  by_cases h : n = i
  · subst h
    rw [if_pos rfl, List.drop_append, List.drop_of_length_le (by omega), List.nil_append,
      show 8*n - X.length = 0 by omega, List.drop_zero, List.take_of_length_le hY, List.take_nil]
    simp [packLe]
  · rw [if_neg h]
    congr 2
    rw [List.drop_append, List.take_append]
    by_cases h2 : i < n
    · rw [show 8 - (X.drop (8*i)).length = 0 by simp; omega, List.take_zero, List.append_nil]
    · rw [List.drop_of_length_le (by omega : X.length ≤ 8*i), List.drop_of_length_le (by omega : Y.length ≤ 8*i - X.length)]
      simp

/-- Eight bytes into an empty buffer: the word they pack to is absorbed (R143). -/
theorem absorbSerial_word (X : List Byte) (s : State) (hb : s.byteIndex = 0) (hs : s.saved = 0) (h : X.length = 8) :
    absorbSerial X s = absorbWord (packLe X) s := by
  rw [absorbSerial_complete X s (by simp [hb, h]), bufferBytes_eq X s (by simp [hb, h]), completeWord, absorbWord]
  congr 1
  apply State.ext_fields <;> first | rfl | (simp [hb, hs])

/-- A lane number as the 5-bit `wordIndex`. -/
theorem toNat_ofNat5 {n : Nat} (h : n < 32) : (BitVec.ofNat 5 n).toNat = n := by simp [Nat.mod_eq_of_lt h]

/-- Whole words within a block, into an empty buffer at lane 0 (R141, R142). -/
theorem absorbSerial_words (n : Nat) (X : List Byte) (s : State) (hb : s.byteIndex = 0) (hs : s.saved = 0) (hw : s.wordIndex = 0)
    (hX : X.length = 8 * n) (hn : n < s.rateWords) :
    absorbSerial X s = { s with A := xorBlock s.A X, wordIndex := BitVec.ofNat 5 n } := by
  have hr : s.rateWords ≤ 25 := by simp [State.rateWords]
  induction n generalizing X with
  | zero =>
    have : X = [] := List.length_eq_zero_iff.1 (by omega)
    subst this
    rw [absorbSerial_nil, xorBlock_nil]
    apply State.ext_fields <;> first | rfl | (simp [hw])
  | succ n ih =>
    rw [← List.take_append_drop (8*n) X, absorbSerial_append, ih (X.take (8*n)) (by simp; omega) (by omega)]
    have e := absorbSerial_word (X.drop (8*n)) 
      { s with A := xorBlock s.A (X.take (8*n)), wordIndex := BitVec.ofNat 5 n } hb hs (by simp; omega)
    rw [e, absorbWord, advance_within]
    · rw [xorBlock_word _ _ _ n (by omega) (by simp; omega) (by simp; omega)]
      simp only [setWordIndex, xorLane, State.mk.injEq, true_and, and_true]
      refine ⟨?_, ?_⟩
      · rw [toNat_ofNat5 (show n < 32 by omega)]
      · apply BitVec.eq_of_toNat_eq; simp
    · simp only [xorLane_wordIndex, toNat_ofNat5 (show n < 32 by omega)]
      rw [rateWords_congr (t := s) (by simp only [xorLane_capacityWords])]; omega

/-- Less than a block, into an empty buffer at lane 0: whole words in the lanes, the rest in `saved` (R141). -/
theorem absorbSerial_within (X : List Byte) (s : State) (hb : s.byteIndex = 0) (hs : s.saved = 0) (hw : s.wordIndex = 0)
    (hX : X.length < 8 * s.rateWords) :
    absorbSerial X s = { s with
      A := xorBlock s.A (X.take (8 * (X.length / 8))), wordIndex := BitVec.ofNat 5 (X.length / 8)
      saved := packLe (X.drop (8 * (X.length / 8))), byteIndex := BitVec.ofNat 3 (X.length % 8) } := by
  have hr : s.rateWords ≤ 25 := by simp [State.rateWords]
  conv_lhs => rw [← List.take_append_drop (8*(X.length/8)) X]
  rw [absorbSerial_append, absorbSerial_words (X.length/8) (X.take _) s hb hs hw (by simp; omega) (by omega)]
  rw [absorbSerial_short _ _ (by simp [hb]; omega), bufferBytes_eq _ _ (by simp [hb]; omega)]
  apply State.ext_fields <;> try rfl
  · simp [hb, hs]
  · simp only [hb, List.length_drop]
    apply BitVec.eq_of_toNat_eq; simp; omega

/-- A whole block, into an empty buffer at lane 0: the permutation runs, and the buffer is empty again (R142). -/
theorem absorbSerial_block (X : List Byte) (s : State) (hb : s.byteIndex = 0) (hs : s.saved = 0) (hw : s.wordIndex = 0)
    (hX : X.length = 8 * s.rateWords) (h0 : 0 < s.rateWords) :
    absorbSerial X s = { s with A := keccakF (xorBlock s.A X) } := by
  have hr : s.rateWords ≤ 25 := by simp [State.rateWords]
  obtain ⟨n, hn⟩ : ∃ n, s.rateWords = n + 1 := ⟨s.rateWords - 1, by omega⟩
  have e := absorbSerial_words n (X.take (8*n)) s hb hs hw (by simp; omega) (by omega)
  conv_lhs => rw [← List.take_append_drop (8*n) X]
  have e' := absorbSerial_word (X.drop (8*n)) 
      { s with A := xorBlock s.A (X.take (8*n)), wordIndex := BitVec.ofNat 5 n } hb hs (by simp; omega)
  rw [absorbSerial_append, e, e', absorbWord, advance_boundary]
  · conv_rhs => rw [← List.take_append_drop (8*n) X]
    rw [xorBlock_word _ _ _ n (by omega) (by simp; omega) (by simp; omega)]
    simp only [setWordIndex, permute, xorLane, State.mk.injEq, true_and, and_true]
    refine ⟨?_, hw.symm⟩
    rw [toNat_ofNat5 (show n < 32 by omega)]
  · simp only [xorLane_wordIndex, toNat_ofNat5 (show n < 32 by omega)]
    rw [rateWords_congr (t := s) (by simp only [xorLane_capacityWords])]; exact hn.symm

/-- Whole blocks, then the rest (R142). -/
theorem absorbSerial_blocks (q : Nat) (X : List Byte) (s : State) (hb : s.byteIndex = 0) (hs : s.saved = 0) (hw : s.wordIndex = 0)
    (h0 : 0 < s.rateWords) (hX : q * (8 * s.rateWords) ≤ X.length) :
    absorbSerial X s = absorbSerial (X.drop (q * (8 * s.rateWords))) { s with A := spongeBlocks (8 * s.rateWords) q X s.A } := by
  induction q generalizing X s with
  | zero => simp [spongeBlocks]
  | succ q ih =>
    rw [Nat.succ_mul q] at hX
    conv_lhs => rw [← List.take_append_drop (8 * s.rateWords) X]
    rw [absorbSerial_append, absorbSerial_block (X.take _) s hb hs hw (by simp; omega) h0]
    have := ih (X.drop (8 * s.rateWords)) { s with A := keccakF (xorBlock s.A (X.take (8 * s.rateWords))) } hb hs hw h0 (by
      show q * (8 * s.rateWords) ≤ _
      simp; omega)
    rw [this]
    show absorbSerial (List.drop (q * (8 * s.rateWords)) (List.drop (8 * s.rateWords) X)) _ = _
    rw [List.drop_drop, Nat.succ_mul q, Nat.add_comm (q * _)]
    rfl

/-- Any sequence absorbed into an empty buffer at lane 0 (R141, R142, R51). -/
theorem absorbSerial_fresh (X : List Byte) (s : State) (hb : s.byteIndex = 0) (hs : s.saved = 0) (hw : s.wordIndex = 0)
    (h0 : 0 < s.rateWords) :
    absorbSerial X s =
      { s with
        A := xorBlock (spongeBlocks (8 * s.rateWords) (X.length / (8 * s.rateWords)) X s.A)
              ((X.drop (X.length / (8 * s.rateWords) * (8 * s.rateWords))).take (8 * (X.length / 8 % s.rateWords)))
        wordIndex := BitVec.ofNat 5 (X.length / 8 % s.rateWords)
        saved := packLe (X.drop (8 * (X.length / 8)))
        byteIndex := BitVec.ofNat 3 (X.length % 8) } := by
  have hd := Nat.div_add_mod X.length (8 * s.rateWords)
  have hm := Nat.mod_lt X.length (show 0 < 8 * s.rateWords by omega)
  have e8 : X.length % (8 * s.rateWords) / 8 = X.length / 8 % s.rateWords := Nat.mod_mul_right_div_self ..
  have e8' : X.length % (8 * s.rateWords) % 8 = X.length % 8 := Nat.mod_mod_of_dvd _ (by simp)
  have el : (X.drop (X.length / (8 * s.rateWords) * (8 * s.rateWords))).length = X.length % (8 * s.rateWords) := by
    rw [List.length_drop, Nat.mul_comm (X.length / _)]; omega
  rw [absorbSerial_blocks (X.length / (8 * s.rateWords)) X s hb hs hw h0 (Nat.div_mul_le_self ..)]
  have ew := absorbSerial_within (X.drop (X.length / (8 * s.rateWords) * (8 * s.rateWords)))
    { s with A := spongeBlocks (8 * s.rateWords) (X.length / (8 * s.rateWords)) X s.A } hb hs hw (by rw [el]; exact hm)
  rw [ew, el, e8, e8', List.drop_drop]
  congr 3
  have := Nat.div_add_mod (X.length % (8 * s.rateWords)) 8
  rw [e8, e8'] at this
  have h2 := Nat.div_add_mod X.length 8
  rw [Nat.mul_comm (X.length / _)]
  omega

/-- The `q` bytes of padding that fill a block, `q` at least 1 (R160, R161). -/
def padBytes (m : BitVec 1) (q : Nat) : List Byte :=
  if q = 1 then [suffixByte m ^^^ 0x80#8] else suffixByte m :: List.replicate (q - 2) 0#8 ++ [0x80#8]

/-- A padded message is the message and its padding. -/
theorem padMessage_eq (r : Nat) (m : BitVec 1) (X : List Byte) : padMessage r m X = X ++ padBytes m (r - X.length % r) := by
  unfold padMessage padBytes
  simp only
  split <;> simp

/-- Padding fills what is left of the block (R161). -/
theorem length_padBytes (m : BitVec 1) (q : Nat) (h : 0 < q) : (padBytes m q).length = q := by
  unfold padBytes
  split
  · simp [*]
  · simp; omega

/-- A byte of the padding: the suffix first, the final 1 last, both where they meet (R160, R161). -/
theorem getD_padBytes (m : BitVec 1) (q : Nat) (h : 0 < q) (l : Nat) :
    (padBytes m q).getD l 0 = (if l = 0 then suffixByte m else 0) ^^^ (if l = q - 1 then 0x80#8 else 0) := by
  unfold padBytes
  split
  · rename_i h1; subst h1
    cases l <;> simp
  · rename_i h1
    cases l with
    | zero => simp [show ¬ (0 = q - 1) by omega]
    | succ l =>
      simp only [List.cons_append, List.getD_cons_succ, Nat.add_eq_zero_iff, one_ne_zero, and_false, if_false]
      rw [List.getD_eq_getElem?_getD, List.getElem?_append]
      by_cases hl : l < q - 2
      · rw [if_pos (by simpa using hl), if_neg (by omega)]; simp [hl]
      · rw [if_neg (by simpa using hl)]
        by_cases h2 : l + 1 = q - 1
        · rw [if_pos h2, show l - (List.replicate (q-2) 0#8).length = 0 by simp; omega]; simp
        · rw [if_neg h2, List.getElem?_eq_none (by simp; omega)]; simp

/-- A bit of the padding word (R160). -/
theorem paddingWord_bit (m : BitVec 1) (b : BitVec 3) {k : Nat} (hk : k < 64) :
    (paddingWord m b).getLsbD k = (if k / 8 = b.toNat then (suffixByte m).getLsbD (k % 8) else false) := by
  have key : ∀ m : BitVec 1, ∀ b : BitVec 3, ∀ k : Fin 64, (paddingWord m b).getLsbD k.val =
      (if k.val / 8 = b.toNat then (suffixByte m).getLsbD (k.val % 8) else false) := by decide +kernel
  exact key m b ⟨k, hk⟩

/-- A bit of the word that holds the last bit of the rate (R161). -/
theorem lastRateBit_bit {k : Nat} (hk : k < 64) :
    lastRateBit.getLsbD k = (if k / 8 = 7 then (0x80#8).getLsbD (k%8) else false) := by
  have key : ∀ k : Fin 64, lastRateBit.getLsbD k.val =
      (if k.val / 8 = 7 then (0x80#8).getLsbD (k.val % 8) else false) := by decide +kernel
  exact key ⟨k, hk⟩

/-- A byte of the `i`-th eight bytes of a sequence. -/
theorem getD_chunk (L : List Byte) (i j : Nat) (hj : j < 8) : ((L.drop (8*i)).take 8).getD j 0 = L.getD (8*i+j) 0 := by
  simp only [List.getD_eq_getElem?_getD, List.getElem?_take, List.getElem?_drop, if_pos hj]

/-- A lane after two XORs into lanes, which may be one lane (R161). -/
theorem lane_xor_two (C : Lanes) (p q : Nat) (u l : Lane) {i : Nat} (hi : i < 25) :
    lane (setLane (setLane C p (lane C p ^^^ u)) q (lane (setLane C p (lane C p ^^^ u)) q ^^^ l)) i =
      lane C i ^^^ ((if p = i then u else 0) ^^^ (if q = i then l else 0)) := by
  rw [lane_setLane _ _ _ _ hi]
  by_cases h1 : q = i
  · rw [if_pos h1, if_pos h1, h1, lane_setLane _ _ _ _ hi]
    by_cases h2 : p = i
    · rw [if_pos h2, if_pos h2, h2, BitVec.xor_assoc]
    · rw [if_neg h2, if_neg h2]; simp
  · rw [if_neg h1, if_neg h1, lane_setLane _ _ _ _ hi]
    by_cases h2 : p = i
    · rw [if_pos h2, if_pos h2, h2]; simp
    · rw [if_neg h2, if_neg h2]; simp

/-- The bits that finalize XORs into lane `wordIndex`: those of the last bytes, and the suffix after them (R160, R161). -/
theorem bit_saved (rem : List Byte) (m : BitVec 1) (b : BitVec 3) (hb : b.toNat = rem.length % 8) (i k : Nat) (hk : k < 64) :
   ((if rem.length/8 = i then packLe (rem.drop (8*(rem.length/8))) ^^^ paddingWord m b else 0) : BitVec 64).getLsbD k =
     ((if rem.length / 8 = i then (rem.getD (8*i+k/8) 0).getLsbD (k%8) else false) ^^
       (if 8*i + k/8 = rem.length then (suffixByte m).getLsbD (k%8) else false)) := by
  by_cases h : rem.length/8 = i
  · rw [if_pos h, if_pos h, BitVec.getLsbD_xor, getLsbD_packLe _ hk, paddingWord_bit _ _ hk, hb, h]
    congr 1
    · simp only [List.getD_eq_getElem?_getD, List.getElem?_drop]
    · by_cases h3 : k/8 = rem.length % 8
      · rw [if_pos h3, if_pos (by omega)]
      · rw [if_neg h3, if_neg (by omega)]
  · rw [if_neg h, if_neg h, if_neg (by omega)]; simp

/-- The bits that finalize XORs into the last lane of the rate (R161). -/
theorem bit_last (w i k : Nat) (hw : 0 < w) (hk : k < 64) :
    ((if w - 1 = i then lastRateBit else 0) : BitVec 64).getLsbD k =
      (if 8*i+k/8 = 8*w-1 then (0x80#8).getLsbD (k%8) else false) := by
  by_cases h : w - 1 = i
  · rw [if_pos h, lastRateBit_bit hk]
    by_cases h3 : k/8 = 7
    · rw [if_pos h3, if_pos (by omega)]
    · rw [if_neg h3, if_neg (by omega)]
  · rw [if_neg h, if_neg (by omega)]; simp

/-- A bit of byte `j` of the last block (R161). -/
theorem bit_full (rem : List Byte) (m : BitVec 1) (w j kk : Nat) (ht : rem.length < 8 * w) :
    ((rem ++ padBytes m (8 * w - rem.length)).getD j 0).getLsbD kk =
      (((rem.take (8*(rem.length/8))).getD j 0).getLsbD kk ^^
       (((if rem.length / 8 = j/8 then (rem.getD j 0).getLsbD kk else false) ^^
         (if j = rem.length then (suffixByte m).getLsbD kk else false)) ^^
        (if j = 8*w-1 then (0x80#8).getLsbD kk else false))) := by
  by_cases hj : j < rem.length
  · rw [if_neg (show ¬ j = rem.length by omega), if_neg (show ¬ j = 8*w-1 by omega)]
    have a1 : (rem ++ padBytes m (8 * w - rem.length)).getD j 0 = rem.getD j 0 := by
      simp only [List.getD_eq_getElem?_getD, List.getElem?_append, if_pos hj]
    rw [a1]
    by_cases h2 : j < 8*(rem.length/8)
    · rw [if_neg (by omega)]
      simp only [List.getD_eq_getElem?_getD, List.getElem?_take, if_pos h2]; simp
    · rw [if_pos (by omega)]
      simp only [List.getD_eq_getElem?_getD, List.getElem?_take, if_neg h2]; simp
  · have a1 : (rem ++ padBytes m (8 * w - rem.length)).getD j 0 = (padBytes m (8*w-rem.length)).getD (j - rem.length) 0 := by
      simp only [List.getD_eq_getElem?_getD, List.getElem?_append, if_neg hj]
    have a2 : (rem.take (8*(rem.length/8))).getD j 0 = 0 := by
      rw [List.getD_eq_getElem?_getD, List.getElem?_eq_none (by simp; omega)]; rfl
    have a3 : rem.getD j 0 = 0 := by
      rw [List.getD_eq_getElem?_getD, List.getElem?_eq_none (by omega)]; rfl
    rw [a1, a2, a3, getD_padBytes _ _ (by omega), BitVec.getLsbD_xor]
    by_cases h1 : j = rem.length
    · rw [if_pos h1, if_pos (by omega)]
      by_cases h2 : j = 8*w-1
      · rw [if_pos h2, if_pos (by omega)]; simp
      · rw [if_neg h2, if_neg (by omega)]; simp
    · rw [if_neg h1, if_neg (by omega)]
      by_cases h2 : j = 8*w-1
      · rw [if_pos h2, if_pos (by omega)]; simp
      · rw [if_neg h2, if_neg (by omega)]; simp

/-- What finalize XORs into the state is the last block of the padded message (R161). -/
theorem pad_block (B : Lanes) (rem : List Byte) (m : BitVec 1) (w : Nat) (ht : rem.length < 8 * w)
    (b : BitVec 3) (hb : b.toNat = rem.length % 8) :
    setLane (setLane (xorBlock B (rem.take (8 * (rem.length/8)))) (rem.length/8)
        (lane (xorBlock B (rem.take (8 * (rem.length/8)))) (rem.length/8) ^^^
          (packLe (rem.drop (8*(rem.length/8))) ^^^ paddingWord m b))) (w-1)
       (lane (setLane (xorBlock B (rem.take (8 * (rem.length/8)))) (rem.length/8)
        (lane (xorBlock B (rem.take (8 * (rem.length/8)))) (rem.length/8) ^^^
          (packLe (rem.drop (8*(rem.length/8))) ^^^ paddingWord m b))) (w-1) ^^^ lastRateBit) =
    xorBlock B (rem ++ padBytes m (8 * w - rem.length)) := by
  apply lanes_ext; intro i hi
  rw [lane_xor_two _ _ _ _ _ hi, lane_xorBlock _ _ hi, lane_xorBlock _ _ hi, BitVec.xor_assoc]
  congr 1
  apply BitVec.eq_of_getLsbD_eq
  intro k hk
  have hk8 : k / 8 < 8 := by omega
  rw [BitVec.getLsbD_xor, BitVec.getLsbD_xor, bit_saved _ _ _ hb _ _ hk, bit_last _ _ _ (by omega) hk,
    getLsbD_packLe _ hk, getLsbD_packLe _ hk, getD_chunk _ _ _ hk8, getD_chunk _ _ _ hk8]
  rw [bit_full _ _ _ _ _ ht, show (8*i+k/8)/8 = i by omega]

/-- The last of the blocks of the sponge. -/
theorem spongeBlocks_succ (r q : Nat) (P : List Byte) (A : Lanes) :
    spongeBlocks r (q + 1) P A = keccakF (xorBlock (spongeBlocks r q P A) ((P.drop (q * r)).take r)) := by
  induction q generalizing P A with
  | zero => simp [spongeBlocks]
  | succ q ih =>
    rw [spongeBlocks, ih, spongeBlocks]
    rw [List.drop_drop, show r + q * r = (q+1) * r by rw [Nat.succ_mul]; omega]

/-- The blocks of the sponge see only their own bytes. -/
theorem spongeBlocks_append (r q : Nat) (P Q : List Byte) (A : Lanes) (h : q * r ≤ P.length) :
    spongeBlocks r q (P ++ Q) A = spongeBlocks r q P A := by
  induction q generalizing P A with
  | zero => rfl
  | succ q ih =>
    rw [Nat.succ_mul] at h
    rw [spongeBlocks, spongeBlocks, List.drop_append, List.take_append, show r - P.length = 0 by omega,
      List.drop_zero, List.take_zero, List.append_nil, ih]
    simp; omega

/-- The lanes after finalize (R161). -/
theorem finalize_A (s : State) : (finalize s).A =
    keccakF (setLane (setLane s.A s.wordIndex.toNat (lane s.A s.wordIndex.toNat ^^^ (s.saved ^^^ paddingWord s.mode s.byteIndex)))
      (s.rateWords - 1)
      (lane (setLane s.A s.wordIndex.toNat
        (lane s.A s.wordIndex.toNat ^^^ (s.saved ^^^ paddingWord s.mode s.byteIndex))) (s.rateWords - 1) ^^^ lastRateBit)) := rfl

/-- Finalize after a sequence absorbed into an empty buffer at lane 0: the sponge on the padded sequence (R161, R164). -/
theorem finalize_absorbSerial (X : List Byte) (s : State) (m : BitVec 1) (hb : s.byteIndex = 0) (hs : s.saved = 0) (hw : s.wordIndex = 0)
    (h0 : 0 < s.rateWords) :
    (finalize { absorbSerial X s with mode := m }).A =
      spongeBlocks (8 * s.rateWords) (X.length / (8 * s.rateWords) + 1) (padMessage (8 * s.rateWords) m X) s.A := by
  have hr : s.rateWords ≤ 25 := by simp [State.rateWords]
  have hd := Nat.div_add_mod X.length (8 * s.rateWords)
  have hm := Nat.mod_lt X.length (show 0 < 8 * s.rateWords by omega)
  have e8 : X.length % (8 * s.rateWords) / 8 = X.length / 8 % s.rateWords := Nat.mod_mul_right_div_self ..
  have e8' : X.length % (8 * s.rateWords) % 8 = X.length % 8 := Nat.mod_mod_of_dvd _ (by simp)
  generalize hq : X.length / (8 * s.rateWords) = q at *
  have hd' : q * (8 * s.rateWords) + X.length % (8 * s.rateWords) = X.length := by rw [Nat.mul_comm]; exact hd
  have el : (X.drop (q * (8 * s.rateWords))).length = X.length % (8 * s.rateWords) := by
    rw [List.length_drop]; omega
  rw [spongeBlocks_succ, padMessage_eq, spongeBlocks_append _ _ _ _ _ (by omega), List.drop_append,
    show q * (8 * s.rateWords) - X.length = 0 by omega, List.drop_zero, List.take_of_length_le (by
    rw [List.length_append, el, length_padBytes _ _ (by omega)]; omega)]
  rw [absorbSerial_fresh X s hb hs hw h0, hq]
  have key := pad_block (spongeBlocks (8 * s.rateWords) q X s.A) (X.drop (q * (8 * s.rateWords))) m s.rateWords (by omega)
    (BitVec.ofNat 3 (X.length % 8)) (by
    rw [el, e8']; simp)
  rw [el, e8, List.drop_drop, show q * (8 * s.rateWords) + 8 * (X.length / 8 % s.rateWords) = 8 * (X.length / 8) by omega] at key
  rw [← key, finalize_A]
  have e5 : (BitVec.ofNat 5 (X.length / 8 % s.rateWords)).toNat = X.length / 8 % s.rateWords :=
    toNat_ofNat5 (by omega)
  simp only [State.rateWords] at e5 ⊢
  rw [e5]

end Sys2Proof.Machine
end

