-- ==== Sys2Proof/Laws/Step.lean ====
section
/-! SUPPORT. Everything one step can be: waiting, a reset, a command run, an illegal word, or a second host refused. -/

namespace Sys2Proof.Machine

/-- The cases of a step, by what is delivered next (R60, R62, R70, R202, R230). -/
theorem step_cases (s : State) :
    (s.pending = [] ∧ step s = .next s) ∨
    (∃ rest, s.pending = .reset :: rest ∧ step s = .next (takeReset rest s)) ∨
    (∃ h c rest i, s.pending = .command h c :: rest ∧ admitsHost h s = true ∧ decode c.cmd c.data = .instr i ∧
      step s = exec i (takeCommand h rest s)) ∨
    (∃ h c rest why, s.pending = .command h c :: rest ∧ admitsHost h s = true ∧ decode c.cmd c.data = .illegal why ∧
      step s = .next (raise .illegalCommand (takeCommand h rest s))) ∨
    (∃ h c rest, s.pending = .command h c :: rest ∧ admitsHost h s = false ∧ step s = .refused (.secondHost h)) := by
  match hp : s.pending with
  | [] => exact .inl ⟨rfl, by simp [step, hp]⟩
  | .reset :: rest => exact .inr (.inl ⟨rest, rfl, by simp [step, hp]⟩)
  | .command h c :: rest =>
    refine .inr (.inr ?_)
    cases ha : admitsHost h s
    · exact .inr (.inr ⟨h, c, rest, rfl, ha, by simp [step, hp, ha]⟩)
    · cases hd : decode c.cmd c.data with
      | instr i => exact .inl ⟨h, c, rest, i, rfl, ha, hd, by simp [step, hp, ha, hd]⟩
      | illegal why => exact .inr (.inl ⟨h, c, rest, why, rfl, ha, hd, by simp [step, hp, ha, hd]⟩)

/-- The core takes a command from any host while it has none, and then from that one (R62). -/
theorem admitsHost_iff (h : Nat) (s : State) : admitsHost h s = true ↔ s.host = none ∨ s.host = some h := by
  unfold admitsHost
  cases s.host <;> simp

end Sys2Proof.Machine
end

