-- ==== Sys2Proof/Tests/Slice0.lean ====
section
/-! SUPPORT. Small tests, their expected values taken from spec/95_test_vectors.md and the worked examples of the rules, and for
each statement with hypotheses a witness that meets them. -/

namespace Sys2Proof.Tests

open Sys2Proof.Machine

/-! ## Small states -/

/-- A state with nothing in it, in phase UNINIT: not the reset state, whose registers are free. -/
def blank : State where
  A := Vector.replicate 25 0
  saved := 0
  byteIndex := 0
  wordIndex := 0
  capacityWords := 0
  mode := 0
  phase := .uninit
  err := 0
  resp := none
  pending := []
  host := none
  draws := 0

/-- The context that `INIT 256` makes (R36). -/
def fresh256 : State := { blank with phase := .absorbing, capacityWords := 8 }

/-- A context one byte short of its block: seven bytes held, lane `rateWords − 1` next (V-A6, 256). -/
def oneShort : State := { fresh256 with wordIndex := 16, byteIndex := 7, saved := 0x0086858483828180 }

/-- A finalized 256-bit context whose lanes hold some of the digest of P1. -/
def done256 : State :=
  { blank with
    phase := .finalized, capacityWords := 8
    A := setLane (setLane (Vector.replicate 25 0) 0 0x66D71EBFF8C6FFA7) 3 0x4A43F8804B0AD882 }

/-- A finalized 512-bit context. -/
def done512 : State := { blank with phase := .finalized, capacityWords := 16 }

/-- What a test reads of a next state. -/
def seen {α : Type} (o : Host.Outcome State Fault Refusal) (f : State → α) : Option α :=
  match o with
  | .next t => some (f t)
  | .fault _ => none
  | .refused _ => none

/-- A response as the numbers of the spec's tables. -/
def responseOf (t : State) : Option (Nat × Nat × Nat) :=
  t.resp.map fun r => (r.status.code.toNat, r.err.toNat, r.rdata.toNat)

/-! ## Well-formedness: one ill-formed term for the one check -/

theorem test_wellFormed_refuses_len9 : (Instr.absorb 9#4 0).wellFormed = false := by decide
theorem test_wellFormed_takes_len8 : (Instr.absorb 8#4 0).wellFormed = true := by decide

/-! ## Decoding: words written out from the formats of R71, as V-E1 lists them -/

theorem test_decode_config :
    decode 0x01000001 0 = .instr (.init 256) ∧ decode 0x01800001 0 = .instr (.init 384) ∧
    decode 0x02000001 0 = .instr (.init 512) ∧ decode 0x00E00001 0 = .instr (.init 224) ∧
    decode 0x00000002 0 = .instr (.setmode 0) ∧ decode 0x00010002 0 = .instr (.setmode 1) := by decide

theorem test_decode_absorb :
    decode 0x00000003 0xFFFFFFFFFFFFFFFF = .instr (.absorb 0 0xFFFFFFFFFFFFFFFF) ∧
    decode 0x00000083 0x0706050403020100 = .instr (.absorb 8 0x0706050403020100) := by decide

theorem test_decode_squeeze :
    decode 0x00000004 0 = .instr .final ∧ decode 0x00000005 0 = .instr (.rdbyte 0) ∧
    decode 0x00003F05 0 = .instr (.rdbyte 63) ∧ decode 0x0000FF05 0 = .instr (.rdbyte 255) ∧
    decode 0x00000706 0 = .instr (.rdlane 7) := by decide

theorem test_decode_illegal :
    [0x00000000#32, 0x01000011, 0x00030002, 0x00000012, 0x00000007, 0xFFFFFFFF, 0x00000093, 0x000000F3].all
        (fun w => match decode w 0 with | .instr _ => false | .illegal _ => true) = true ∧
    [0x00000103#32, 0x00000014, 0x80000004, 0x00000015, 0x00010005, 0x0000000F].all
        (fun w => match decode w 0 with | .instr _ => false | .illegal _ => true) = true := by decide

/-- In the table's numbering a 32-bit row has the data operand 0, and the operand's bits follow the word. -/
theorem test_decodeTableWord :
    decodeTableWord 32 0x00000083 = some (.absorb 8 0) ∧
    decodeTableWord 96 (0x6261 * 2 ^ 32 + 0x23) = some (.absorb 2 0x6261) ∧ decodeTableWord 32 0 = none := by decide

/-! ## INIT and SETMODE (V-C1, V-C2, P4, P6) -/

theorem test_init_384 :
    seen (exec (.init 384) { done512 with err := 1 }) (fun t => (t.rateWords, t.phase, responseOf t)) =
      some (13, .absorbing, some (0, 1, 0)) := by decide

theorem test_init_224_configError :
    seen (exec (.init 224) oneShort) (fun t => (t.saved, t.phase, responseOf t)) =
      some (0x0086858483828180, .absorbing, some (1, 0, 0)) := by decide

theorem test_setmode_returns_previous :
    seen (exec (.setmode 0) { fresh256 with mode := 1 }) (fun t => (t.mode, responseOf t)) = some (0, some (0, 0, 1)) := by
  decide

/-! ## ABSORB (V-A4, the eager trigger of R142) -/

theorem test_absorb_completes_the_word :
    seen (exec (.absorb 8 0x8877665544332211) { fresh256 with saved := 0x636261, byteIndex := 3 })
      (fun t => (lane t.A 0, t.wordIndex, t.saved, t.byteIndex)) = some (0x5544332211636261, 1, 0x887766, 3) := by
  decide +kernel

/-- P3 line 15: the last lane of the block, and the permutation in the same command. -/
theorem test_absorb_permutes_at_the_boundary :
    seen
      (exec (.absorb 8 0x6766656463626160)
        { blank with
          phase := .absorbing, capacityWords := 12, wordIndex := 12, mode := 1
          A := xorBlock (Vector.replicate 25 0) ((List.range 96).map (BitVec.ofNat 8)) })
      (fun t => (lane t.A 0, t.wordIndex, t.byteIndex)) = some (0x9D8C07491707D272, 0, 0) := by decide +kernel

/-! ## FINAL (P1; V-F1, V-F4) -/

theorem test_final_empty_256 :
    seen (exec .final fresh256) (fun t => (lane t.A 0, lane t.A 3, t.phase)) =
      some (0x66D71EBFF8C6FFA7, 0x4A43F8804B0AD882, .finalized) := by decide +kernel

theorem test_paddingWord :
    paddingWord 0 0 = 0x6 ∧ paddingWord 1 0 = 0x1 ∧ paddingWord 0 3 = 0x6000000 ∧
    paddingWord 0 7 = 0x0600000000000000 ∧ paddingWord 1 7 = 0x0100000000000000 := by decide

/-- V-F4: the byte that gets both padding bits; and C2: the last bit is XORed, not set. -/
theorem test_last_rate_byte :
    oneShort.saved ^^^ paddingWord 0 7 ^^^ lastRateBit = 0x8686858483828180 ∧
    oneShort.saved ^^^ paddingWord 1 7 ^^^ lastRateBit = 0x8186858483828180 ∧
    0xA21E971D15102013 ^^^ lastRateBit = 0x221E971D15102013 := by decide

/-! ## RDBYTE and RDLANE (P1, V-F8) -/

theorem test_rdbyte_31 : seen (exec (.rdbyte 31) done256) responseOf = some (some (0, 0, 0x4A)) := by decide +kernel
theorem test_rdbyte_32_usageError : seen (exec (.rdbyte 32) done256) responseOf = some (some (2, 1, 0)) := by decide
theorem test_rdlane_0 :
    seen (exec (.rdlane 0) done256) responseOf = some (some (0, 0, 0x66D71EBFF8C6FFA7)) := by decide +kernel
theorem test_rdlane_8_usageError : seen (exec (.rdlane 8) done512) responseOf = some (some (2, 1, 0)) := by decide

/-! ## The permutation (V-P1 to V-P5) -/

theorem test_theta_one :
    (theta (setLane (Vector.replicate 25 0) 0 1)).toList =
      [1, 1, 0, 0, 2, 0, 1, 0, 0, 2, 0, 1, 0, 0, 2, 0, 1, 0, 0, 2, 0, 1, 0, 0, 2] := by decide +kernel

theorem test_rhoPi_ones :
    (rhoPi (Vector.replicate 25 1)).toList =
      [0x1, 0x100000000000, 0x80000000000, 0x200000, 0x4000, 0x10000000, 0x100000, 0x8, 0x200000000000,
        0x2000000000000000, 0x2, 0x40, 0x2000000] ++
      [0x100, 0x40000, 0x8000000, 0x1000000000, 0x400, 0x8000, 0x100000000000000, 0x4000000000000000, 0x80000000000000,
        0x8000000000, 0x20000000000, 0x4] := by decide +kernel

theorem test_rhoPi_one :
    rhoPi (setLane (Vector.replicate 25 0) 1 1) = setLane (Vector.replicate 25 0) 10 2 := by decide +kernel

theorem test_chi_row :
    ((chi (setLane (Vector.replicate 25 0) 2 1)).toList.take 5, (chi (setLane (setLane (Vector.replicate 25 0) 0 1) 2 1)).toList.take 5,
      (chi (setLane (setLane (Vector.replicate 25 0) 1 1) 2 1)).toList.take 5) =
    ([1, 0, 1, 0, 0], [0, 0, 1, 1, 0], [0, 1, 1, 0, 1]) := by decide +kernel

theorem test_round0_of_zero :
    keccakRound (Vector.replicate 25 0) 1 = setLane (Vector.replicate 25 0) 0 1 := by decide +kernel

theorem test_keccakF_zero :
    (keccakF (Vector.replicate 25 0)).toList =
      [0xF1258F7940E1DDE7, 0x84D5CCF933C0478A, 0xD598261EA65AA9EE, 0xBD1547306F80494D, 0x8B284E056253D057,
        0xFF97A42D7F8E6FD4, 0x90FEE5A0A44647C4, 0x8C5BDA0CD6192E76, 0xAD30A6F71B19059C] ++
      [0x30935AB7D08FFC64, 0xEB5AA93F2317D635, 0xA9A6E6260D712103, 0x81A57C16DBCF555F, 0x43B831CD0347C826,
        0x01F22F1A11A5569F, 0x05E5635A21D9AE61, 0x64BEFEF28CC970F2, 0x613670957BC46611] ++
      [0xB87C5A554FD00ECB, 0x8C3EE88A1CCF32C8, 0x940C7922AE3A2614, 0x1841F924A2C509E4, 0x16F53526E70465C2,
        0x75F644E97F30A13B, 0xEAF1FF7B5CECA249] := by decide +kernel

/-! ## The step -/

/-- P1 line 1, from the reset state whatever its free values are. -/
theorem test_step_init_from_reset :
    seen (step (State.reset.withFetchWord 32 0x01000001)) (fun t => (t.rateWords, lane t.A 24, responseOf t)) =
      some (17, 0, some (0, 0, 0)) := by decide +kernel

/-- P4 line 4: the all-zero word. -/
theorem test_step_zero_word :
    seen (step (fresh256.withFetchWord 32 0)) (fun t => (t.phase, responseOf t)) = some (.absorbing, some (3, 1, 0)) := by
  decide

/-- P4 line 2: ABSORB before any INIT. -/
theorem test_step_absorb_uninit :
    seen (step (State.reset.withFetchWord 96 (0x1122 * 2 ^ 32 + 0x83))) (fun t => (t.phase, responseOf t)) =
      some (.uninit, some (2, 1, 0)) := by decide +kernel

theorem test_step_reset_clears_err :
    seen (step { fresh256 with err := 1, pending := [.reset] }) (fun t => (t.phase, t.err, t.pending)) =
      some (.uninit, 0, []) := by decide +kernel

/-! ## Witnesses: states and operands that meet the hypotheses of each statement -/

/-- A command of host `h` pending on `s`. -/
def withCommand (h : Nat) (c : Command) (s : State) : State := { s with pending := [.command h c] }

/-- The size of each of the three configurations meets the hypothesis on sizes. -/
theorem witness_InitMakesTheFreshContext :
    (256#16).toNat = 256 ∧ (384#16).toNat = 384 ∧ (512#16).toNat = 512 := by decide

theorem witness_ResetLeavesUninitWithErrClear :
    ({ fresh256 with pending := [.reset, .command 0 ⟨0x4, 0⟩] } : State).pending = .reset :: [.command 0 ⟨0x4, 0⟩] := by
  decide

theorem witness_StepRunsTheDecodedCommand :
    (withCommand 7 ⟨0x83, 5⟩ blank).pending = [.command 7 ⟨0x83, 5⟩] ∧ (withCommand 7 ⟨0x83, 5⟩ blank).host = none ∧
    (withCommand 7 ⟨0x83, 5⟩ { blank with host := some 7 }).host = some 7 ∧ decode 0x83 5 = .instr (.absorb 8 5) := by decide

theorem witness_IllegalWordAnswersIllegalCommand :
    (withCommand 7 ⟨0x93, 5⟩ blank).pending = [.command 7 ⟨0x93, 5⟩] ∧ (withCommand 7 ⟨0x93, 5⟩ blank).host = none ∧
    IllegalWord 0x93 := by
  refine ⟨rfl, rfl, .inr ?_⟩
  decide

/-- The same pending word is a witness for the third part of R79; this is one for each of R79's other points. -/
theorem witness_DecoderRejectsExactlyTheIllegalWords : IllegalWord 0x0000000F ∧ IllegalWord 0x00030002 := by
  refine ⟨trivial, ?_⟩
  show _ ≠ _
  decide

theorem witness_IdleCoreWaits : fresh256.pending = [] := by decide

theorem witness_SecondHostIsRefusedByName :
    (withCommand 2 ⟨0x4, 0⟩ { fresh256 with host := some 1 }).pending = [.command 2 ⟨0x4, 0⟩] ∧
    (withCommand 2 ⟨0x4, 0⟩ { fresh256 with host := some 1 }).host = some 1 ∧ 1 ≠ 2 := by decide

theorem oneShort_inv : oneShort.Inv := by decide
theorem fresh256_inv : fresh256.Inv := by decide
theorem done256_inv : done256.Inv := by decide +kernel

theorem witness_StepAlwaysCompletesUnderTheInvariant :
    (withCommand 2 ⟨0x13, 0x87⟩ oneShort).Inv ∧
    ∀ h c rest, (withCommand 2 ⟨0x13, 0x87⟩ oneShort).pending = .command h c :: rest →
      (withCommand 2 ⟨0x13, 0x87⟩ oneShort).host = none ∨ (withCommand 2 ⟨0x13, 0x87⟩ oneShort).host = some h :=
  ⟨oneShort_inv, fun _ _ _ _ => .inl rfl⟩

/-- Each of the three clauses at its boundary: lane 25 is the first that does not exist. -/
theorem witness_MissingLaneStopsAbsorbAndFinal :
    ({ fresh256 with wordIndex := 25 } : State).phase = .absorbing ∧ 25 ≤ ({ fresh256 with wordIndex := 25 } : State).wordIndex.toNat ∧
    (8#4).toNat ≤ 8 ∧ 8 ≤ ({ fresh256 with wordIndex := 25 } : State).byteIndex.toNat + (8#4).toNat ∧
    ({ fresh256 with wordIndex := 24, capacityWords := 25 } : State).wordIndex.toNat < 25 ∧
    25 ≤ ({ fresh256 with wordIndex := 24, capacityWords := 25 } : State).capacityWords.toNat := by decide

theorem witness_MeaningsFaultOnlyOutsideTheInvariant :
    exec .final { fresh256 with wordIndex := 25 } = .fault (.noSuchLane 25) ∧
    exec (.absorb 8 0) { fresh256 with wordIndex := 25 } = .fault (.noSuchLane 25) ∧
    exec .final { fresh256 with wordIndex := 24, capacityWords := 25 } = .fault (.noSuchLane (-1)) :=
  ⟨rfl, rfl, rfl⟩

theorem witness_DecoderFollowsTheOpcodeTable :
    decode 0x00003F05 0 = .instr (.rdbyte 63) ∧ decode 0x00010005 0 = .illegal .reservedBit := by decide

theorem witness_EncodedCommandsDecodeBack :
    (Instr.absorb 8 0xFFFFFFFFFFFFFFFF).wellFormed = true ∧ (Instr.init 65535).wellFormed = true := by decide

theorem witness_DecodedCommandsEncodeBack :
    decode 0x83 5 = .instr (.absorb 8 5) ∧ (encode (.absorb 8 5)).data = 5 := by decide

theorem witness_OnlyAbsorbReadsTheDataOperand : opcodeField 0x00000004 ≠ 3 := by decide

theorem witness_AssemblerLinesEncodeTheirCommands :
    assemble (.init 65535) = some ⟨0xFFFF0001, 0⟩ ∧ assemble (.init 65536) = none ∧
    assemble (.absorb 15 1) = some ⟨0xF3, 1⟩ ∧ assemble (.rdbyte 255) = some ⟨0xFF05, 0⟩ ∧
    assemble (.rdlane 255) = some ⟨0xFF06, 0⟩ ∧ (List.replicate 8 (0x61 : Byte)).length ≤ 8 ∧
    assemble (.absorbString [0x61, 0x62, 0x63]) = some ⟨0x33, 0x636261⟩ := by decide

theorem witness_UnsupportedSizeIsConfigError :
    ¬((255#16).toNat = 256 ∨ (255#16).toNat = 384 ∨ (255#16).toNat = 512) ∧ fresh256.host = none ∧
    seen (exec (.init 255) fresh256) (fun t => t.resp.map (·.status)) = some (some .configError) := by decide

theorem witness_OnlyInitWritesTheCapacity :
    (∃ t, exec (.absorb 1 0x87) oneShort = .next t) ∧
    ¬ ∃ size : BitVec 16, Instr.absorb 1 0x87 = .init size ∧ (size.toNat = 256 ∨ size.toNat = 384 ∨ size.toNat = 512) :=
  ⟨⟨_, rfl⟩, fun ⟨_, h, _⟩ => nomatch h⟩

theorem witness_AbsorbDoesNotReadTheMode : ∃ t, exec (.absorb 1 0x87) oneShort = .next t := ⟨_, rfl⟩

theorem witness_ByteSerialFormAgreesWithAbsorb : oneShort.SavedClean ∧ fresh256.SavedClean := by decide
theorem witness_StreamingIsTransparent : oneShort.SavedClean := by decide

theorem witness_AbsorbCommandsFollowTheConcatenation :
    oneShort.phase = .absorbing ∧ oneShort.Inv ∧
    ∀ c ∈ [((0 : BitVec 4), (0 : BitVec 64)), (8, 0x1122334455667788)], c.1.toNat ≤ 8 :=
  ⟨rfl, oneShort_inv, by simp⟩

theorem witness_AbsorbnAbsorbsTheWholeSequence : oneShort.phase = .absorbing ∧ oneShort.Inv := by decide

theorem witness_ShortAbsorbIsBuffered :
    fresh256.phase = .absorbing ∧ fresh256.byteIndex.toNat + (7#4).toNat < 8 ∧
    oneShort.phase = .absorbing ∧ oneShort.byteIndex.toNat + (0#4).toNat < 8 := by decide

/-- The three shapes: a whole word, one byte that ends the word and the block, and a word that leaves bytes over. -/
theorem witness_CompletingAbsorbXorsItsLane :
    fresh256.phase = .absorbing ∧ fresh256.Inv ∧ (8#4).toNat ≤ 8 ∧ 8 ≤ fresh256.byteIndex.toNat + (8#4).toNat ∧
    oneShort.phase = .absorbing ∧ oneShort.Inv ∧ (1#4).toNat ≤ 8 ∧ 8 ≤ oneShort.byteIndex.toNat + (1#4).toNat ∧
    8 ≤ oneShort.byteIndex.toNat + (8#4).toNat ∧ oneShort.wordIndex.toNat + 1 = oneShort.rateWords := by decide

theorem witness_AbsorbIgnoresDataAboveItsLength :
    (∀ i, i < 8 * (3#4).toNat → (0xFFFFFFFFFF636261#64).getLsbD i = (0x636261#64).getLsbD i) ∧
    ∀ i, i < 8 * (0#4).toNat → (1#64).getLsbD i = (2#64).getLsbD i := by decide

/-- A completed word inside the block, and the bytes of another lane; a rejected ABSORB; an ABSORB that completes no word. -/
theorem witness_AbsorbFrame :
    (∃ t, exec (.absorb 8 5) fresh256 = .next t) ∧
    ¬(8 ≤ fresh256.byteIndex.toNat + (8#4).toNat ∧ fresh256.wordIndex.toNat + 1 = fresh256.rateWords) ∧
    199 / 8 ≠ fresh256.wordIndex.toNat ∧ (∃ t, exec (.absorb 8 5) done256 = .next t) ∧
    fresh256.byteIndex.toNat + (7#4).toNat < 8 :=
  ⟨⟨_, rfl⟩, by decide, by decide, ⟨_, rfl⟩, by decide⟩

theorem witness_AbsorbPositionCountsTheBytes : ∃ t, exec (.init 512) blank = .next t := ⟨_, rfl⟩

theorem witness_InputBytesLandLittleEndian :
    ∃ t, exec (.init 256) blank = .next t ∧ (List.replicate 135 (0 : Byte)).length < 8 * t.rateWords :=
  ⟨_, rfl, by rw [List.length_replicate]; decide⟩

theorem witness_FinalPadsAndPermutes :
    oneShort.phase = .absorbing ∧ oneShort.wordIndex.toNat < 25 ∧ oneShort.capacityWords.toNat < 25 ∧
    oneShort.wordIndex.toNat = oneShort.rateWords - 1 := by decide

theorem witness_RdbyteReturnsTheDigestByte :
    done256.phase = .finalized ∧ (31#8).toNat < done256.outputBits / 8 ∧
    done512.phase = .finalized ∧ (63#8).toNat < done512.outputBits / 8 := by decide

theorem witness_RdlaneReturnsTheDigestLane :
    done256.phase = .finalized ∧ (3#8).toNat < done256.outputBits / 64 ∧ (7#8).toNat < done512.outputBits / 64 := by decide

theorem witness_RdlaneBytesAreTheRdbyteBytes :
    done512.phase = .finalized ∧ (7#8).toNat < done512.outputBits / 64 ∧ 7 < 8 := by decide

theorem witness_ReadsAreIdempotent :
    (∃ t, exec (.rdbyte 31) done256 = .next t) ∧ ∃ t, exec (.rdlane 3) done256 = .next t := ⟨⟨_, rfl⟩, _, rfl⟩

/-- Every row of R201, at its first index out of range for the two reads. -/
theorem witness_UsageErrorExactlyWhereForbidden :
    usageForbidden (.absorb 8 0) blank ∧ usageForbidden (.absorb 0 0) done256 ∧ usageForbidden .final blank ∧
    usageForbidden .final done256 ∧ usageForbidden (.rdbyte 0) fresh256 ∧ usageForbidden (.rdbyte 32) done256 ∧
    usageForbidden (.rdlane 0) blank ∧ usageForbidden (.rdlane 4) done256 ∧
    (Instr.absorb 8 0).wellFormed = true ∧
    seen (exec (.rdlane 4) done256) (fun t => t.resp.map (·.status)) = some (some .usageError) := by
  simp only [usageForbidden]
  decide

theorem witness_FailedCommandWritesOnlyErr :
    seen (exec .final done256) (fun t => t.resp.map (·.status)) = some (some .usageError) ∧
    seen (exec (.absorb 9 0) fresh256) (fun t => t.resp.map (·.status)) = some (some .illegalCommand) := by decide

theorem witness_ErrIsStickyAndEchoed :
    (∃ t, step (withCommand 0 ⟨0x10002, 0⟩ { fresh256 with err := 1 }) = .next t) ∧
    (∃ t, step { fresh256 with err := 1, pending := [.reset] } = .next t) ∧ ∃ t, step fresh256 = .next t :=
  ⟨⟨_, rfl⟩, ⟨_, rfl⟩, _, rfl⟩

theorem witness_ErrDoesNotStopCommands :
    seen (exec (.absorb 1 0x61) fresh256) (fun t => t.resp.map (·.status)) = some (some .ok) := by decide

theorem witness_RdataIsZeroUnlessRead :
    seen (exec (.rdbyte 31) done256) (fun t => t.resp.map (·.status)) = some (some .ok) ∧
    seen (step (withCommand 0 ⟨0, 0⟩ fresh256)) (fun t => t.resp.map (·.rdata)) = some (some 0) ∧ IllegalWord 0 :=
  ⟨by decide, by decide, trivial⟩

theorem witness_PhaseFollowsTheLifecycle :
    (∃ t, exec .final fresh256 = .next t) ∧ Phase.uninit.accepts .final = false ∧ done256.phase.accepts (.rdbyte 32) = true ∧
    seen (exec (.rdbyte 32) done256) (fun t => t.resp.map (·.status)) = some (some .usageError) ∧
    ∃ t, step { fresh256 with pending := [.reset] } = .next t :=
  ⟨⟨_, rfl⟩, by decide, by decide, by decide, _, rfl⟩

theorem witness_InitEstablishesTheContextInvariant :
    seen (exec (.init 384) { blank with wordIndex := 31 }) (fun t => t.resp.map (·.status)) = some (some .ok) := by decide

/-- A step that permutes, from a state that meets the invariant. -/
theorem witness_StepKeepsTheContextInvariant :
    oneShort.Inv ∧ ∃ t, step (withCommand 0 ⟨0x13, 0x87⟩ oneShort) = .next t := ⟨oneShort_inv, _, rfl⟩

theorem witness_ThetaXorsNeighbourParities : (0 < 5 ∧ 0 < 5) ∧ 4 < 5 := by decide

theorem witness_RhoPiMatchesThePerLaneForm : (24, 4, 14) ∈ perLaneTable ∧ 1 ≤ 24 ∧ 24 < 25 := by decide

theorem witness_ChiCombinesEachRow :
    ∀ x, x < 5 → lane (Vector.replicate 25 (BitVec.allOnes 64)) (x + 5 * 4) = BitVec.allOnes 64 := by decide +kernel

theorem witness_RoundsRunInOrderWithTheirConstants : (1 ≤ 1 ∧ 1 < 25) ∧ 24 < 25 := by decide

theorem witness_WholeHashIsTheSpongeOfItsInput :
    (512#16).toNat = 512 ∧ ∀ i ∈ [Instr.setmode 1, .absorb 8 0x0706050403020100, .setmode 0, .absorb 0 0],
      absorbOrSetmode i = true := by decide

theorem witness_HashReturnsTheTruncatedDigest : (384#16).toNat = 384 ∧ blank.host = none := by decide

theorem witness_CoresShareNoState :
    (∃ q, Platform.stepCore 1 ⟨[blank, fresh256]⟩ = .next q) ∧ 0 ≠ 1 ∧
    (Platform.mk [blank, fresh256]).cores[1]? = some fresh256 := ⟨⟨_, rfl⟩, by decide, rfl⟩

end Sys2Proof.Tests
end

section
/-! PROOF. The state family: INIT's fresh context (R36, R131), and the lifecycle of `PHASE` (R30) read off the inversion lemmas of
Sys2Proof/Laws/Exec.lean. -/

namespace Sys2Proof.Machine

/-! ## The fresh context -/

/-- INIT with a supported size has one outcome (R130). -/
theorem exec_init_supported {size : BitVec 16} (s : State) (h : supportedSize size = true) :
    exec (.init size) s = .next (respond .ok 0 (freshContext size s)) := by
  obtain ⟨_, he⟩ | ⟨hn, _⟩ := exec_init_cases size s
  · exact he
  · simp [h] at hn

/-- For a supported size the capacity fits its register (R27, R130). -/
theorem capacityFor_toNat {size : BitVec 16} (h : supportedSize size = true) :
    (capacityFor size).toNat = size.toNat / 32 := by
  obtain h | h | h := (supportedSize_iff size).mp h <;> simp [capacityFor, h]

/-- Settles O16: the one outcome of INIT with a supported size, field by field. -/
theorem initMakesTheFreshContext : Obligations.InitMakesTheFreshContext := by
  intro size s hsize
  have hs := (supportedSize_iff size).mpr hsize
  exact ⟨_, exec_init_supported s hs, fun i _ => lane_replicate_zero i, rfl, rfl, rfl, capacityFor_toNat hs,
    rfl, rfl, rfl, rfl, rfl, rfl, rfl⟩

/-! ## The rows of the lifecycle table (R30) -/

@[simp] theorem accepts_init (p : Phase) (size : BitVec 16) : p.accepts (.init size) = true := by cases p <;> rfl

@[simp] theorem accepts_setmode (p : Phase) (m : BitVec 1) : p.accepts (.setmode m) = true := by cases p <;> rfl

@[simp] theorem accepts_absorb (p : Phase) (len : BitVec 4) (data : BitVec 64) :
    p.accepts (.absorb len data) = decide (p = .absorbing) := by cases p <;> rfl

@[simp] theorem accepts_final (p : Phase) : p.accepts .final = decide (p = .absorbing) := by cases p <;> rfl

@[simp] theorem accepts_rdbyte (p : Phase) (idx : BitVec 8) :
    p.accepts (.rdbyte idx) = decide (p = .finalized) := by cases p <;> rfl

@[simp] theorem accepts_rdlane (p : Phase) (idx : BitVec 8) :
    p.accepts (.rdlane idx) = decide (p = .finalized) := by cases p <;> rfl

/-- A well-formed command that the table refuses is a USAGE_ERROR (R30, R201). -/
theorem exec_of_not_accepts {i : Instr} {s : State} (hw : i.wellFormed = true) (ha : s.phase.accepts i = false) :
    exec i s = .next (raise .usageError s) := by
  cases i with
  | init size => simp at ha
  | setmode m => simp at ha
  | absorb len data =>
    have hlen : len.toNat ≤ 8 := of_decide_eq_true hw
    obtain ⟨hbad, _⟩ | ⟨_, _, he⟩ | ⟨_, hp, _⟩ | ⟨_, hp, _⟩ := exec_absorb_cases len data s
    · omega
    · exact he
    · simp [hp] at ha
    · simp [hp] at ha
  | final =>
    obtain ⟨_, he⟩ | ⟨hp, _⟩ | ⟨hp, _⟩ | ⟨hp, _⟩ := exec_final_cases s
    · exact he
    · simp [hp] at ha
    · simp [hp] at ha
    · simp [hp] at ha
  | rdbyte idx =>
    obtain ⟨_, he⟩ | ⟨hp, _⟩ := exec_rdbyte_cases idx s
    · exact he
    · simp [hp] at ha
  | rdlane idx =>
    obtain ⟨_, he⟩ | ⟨hp, _⟩ := exec_rdlane_cases idx s
    · exact he
    · simp [hp] at ha

/-- Of the causes of USAGE_ERROR (R201), the only one left for a command that the table accepts is a read's index. -/
theorem index_out_of_range_of_accepts {i : Instr} {s : State} (ha : s.phase.accepts i = true)
    (hu : usageForbidden i s) :
    ∃ idx : BitVec 8, (i = .rdbyte idx ∧ s.outputBits / 8 ≤ idx.toNat) ∨
      (i = .rdlane idx ∧ s.outputBits / 64 ≤ idx.toNat) := by
  cases i with
  | init size => exact hu.elim
  | setmode m => exact hu.elim
  | absorb len data =>
    have hp : s.phase = .absorbing := by simpa using ha
    simp [usageForbidden, hp] at hu
  | final =>
    have hp : s.phase = .absorbing := by simpa using ha
    simp [usageForbidden, hp] at hu
  | rdbyte idx => exact ⟨idx, .inl ⟨rfl, hu.resolve_left (not_not_intro (by simpa using ha))⟩⟩
  | rdlane idx => exact ⟨idx, .inr ⟨rfl, hu.resolve_left (not_not_intro (by simpa using ha))⟩⟩

/-! ## What a command makes of `PHASE` -/

/-- `PHASE` after a command that ends in status `st`, from `PHASE` before it (R30). -/
def phaseAfter (i : Instr) (st : Status) (p : Phase) : Phase :=
  match i, st with
  | .init _, .ok => .absorbing
  | .final, .ok => .finalized
  | _, _ => p

/-- A failed command leaves `PHASE` (R30, R203). -/
@[simp] theorem phaseAfter_error (i : Instr) (e : CommandError) (p : Phase) : phaseAfter i e.status p = p := by
  cases i <;> cases e <;> rfl

/-- The response of a command says what became of `PHASE` (R30). -/
theorem exec_phase_of_status {i : Instr} {s t : State} {r : Response} (h : exec i s = .next t) (hr : t.resp = some r) :
    t.phase = phaseAfter i r.status s.phase := by
  obtain ⟨e, rfl, _⟩ | ⟨size, rfl, _, rfl⟩ | ⟨m, rfl, rfl⟩ | ⟨len, data, rfl, _, _, _, rfl⟩ | ⟨rfl, _, _, _, rfl⟩ |
    ⟨idx, rfl, _, _, rfl⟩ | ⟨idx, rfl, _, _, rfl⟩ := exec_shape i s t h <;> cases hr
  case inl => simp
  case inr.inr.inr.inl => exact (absorb_bufferOnly _ s).phase
  all_goals rfl

/-- USAGE_ERROR has one of its causes (R201). -/
theorem usageForbidden_of_usageError {i : Instr} {s t : State} {r : Response} (h : exec i s = .next t)
    (hr : t.resp = some r) (hst : r.status = .usageError) : usageForbidden i s := by
  obtain ⟨e, rfl, _, huse, _⟩ | ⟨_, _, _, rfl⟩ | ⟨_, _, rfl⟩ | ⟨_, _, _, _, _, _, rfl⟩ | ⟨_, _, _, _, rfl⟩ |
    ⟨_, _, _, _, rfl⟩ | ⟨_, _, _, _, rfl⟩ := exec_shape i s t h <;> cases hr
  case inl =>
    cases e with
    | usageError => exact huse rfl
    | configError => cases hst
    | illegalCommand => cases hst
  all_goals cases hst

/-- A pending reset is what the step takes (R230). -/
theorem step_reset {s : State} {rest : List Input} (hp : s.pending = .reset :: rest) :
    step s = .next (takeReset rest s) := by
  simp [step, hp]

/-- Value 3 is never held (R30). -/
theorem Phase.code_ne_three (p : Phase) : p.code ≠ 3#2 := by cases p <;> decide

/-- Settles O41: `PHASE` follows `phaseAfter`, and the table's refusals are the causes of USAGE_ERROR other than an index. -/
theorem phaseFollowsTheLifecycle : Obligations.PhaseFollowsTheLifecycle := by
  refine ⟨fun i s t r h hr => exec_phase_of_status h hr, fun i s hw ha => ?_, fun i s t r ha h hr hst => ?_,
    fun s t rest hp h => ?_, rfl, rfl, rfl, Phase.code_ne_three⟩
  · exact ⟨_, _, exec_of_not_accepts hw ha, rfl, rfl⟩
  · exact index_out_of_range_of_accepts ha (usageForbidden_of_usageError h hr hst)
  · rw [step_reset hp, Host.Outcome.next.injEq] at h
    rw [← h, takeReset_phase]

end Sys2Proof.Machine
end

section
/-! PROOF. The encoding family: the decoder against the illegal words of R79 and the opcode table of R78, and what every response
carries in `err` (R76) and `rdata` (R77). -/

namespace Sys2Proof

/-! ## The illegal words (R79) -/

/-- Where only reserved bits are checked, the word is illegal exactly when one of them is set (R79 point 2). -/
theorem illegal_ite_iff {p : Bool} {Q : Prop} (i : Instr) (hp : p = true ↔ Q) :
    (∃ why, (if p then Decoded.instr i else .illegal .reservedBit) = .illegal why) ↔ ¬ Q := by
  rw [← hp]
  cases p <;> simp

/-- The decoder answers illegal on exactly the words of R79, whatever the data operand. -/
theorem decode_illegal_iff (cmd : BitVec 32) (data : BitVec 64) :
    (∃ why, decode cmd data = .illegal why) ↔ IllegalWord cmd := by
  unfold decode IllegalWord
  split
  · exact illegal_ite_iff _ (reservedClearS_iff cmd)
  · exact illegal_ite_iff _ (reservedClearM_iff cmd)
  · have hlen : 9 ≤ (lenField cmd).toNat ↔ ¬ (lenField cmd).toNat ≤ 8 := Nat.not_le.symm
    rw [ne_eq, ← reservedClearL_iff, hlen]
    by_cases hr : reservedClearL cmd = true
    · by_cases hl : (lenField cmd).toNat ≤ 8 <;> simp [hr, hl]
    · simp [hr]
  · exact illegal_ite_iff _ (reservedClearN_iff cmd)
  · exact illegal_ite_iff _ (reservedClearX_iff cmd)
  · exact illegal_ite_iff _ (reservedClearX_iff cmd)
  · simp

/-- The all-zero word is illegal (R79 point 1). -/
theorem illegalWord_zero : IllegalWord 0x00000000#32 := trivial

/-! ## The opcode table (R78) -/

/-- The opcode as a mask of the word (R71). -/
theorem and_opcodeMask (cmd : BitVec 32) : cmd &&& 0xF#32 = (opcodeField cmd).setWidth 32 := by
  ext k hk
  interval_cases k <;> simp [opcodeField]

/-- An opcode has no bit outside the opcode's mask. -/
theorem setWidth_and_opcodeMask (op : BitVec 4) : op.setWidth 32 &&& 0xF#32 = op.setWidth 32 := by
  revert op
  decide

/-- A row's mask is its format's reserved bits and the opcode, so a word matches the row when the opcode is the row's and the
reserved bits are clear (R71, R78). -/
theorem and_mask_eq_iff {cmd reserved : BitVec 32} {op : BitVec 4} (hr : 0xF#32 &&& reserved = 0#32) :
    cmd &&& (reserved ||| 0xF#32) = op.setWidth 32 ↔ opcodeField cmd = op ∧ cmd &&& reserved = 0#32 := by
  rw [BitVec.and_or_distrib_left, and_opcodeMask]
  constructor
  · intro h
    have hop : op.setWidth 32 &&& reserved = 0#32 := by
      rw [← setWidth_and_opcodeMask, BitVec.and_assoc, hr, BitVec.and_zero]
    have hres : cmd &&& reserved = 0#32 := by
      rw [← hop, ← h, BitVec.and_or_distrib_right, BitVec.and_assoc, BitVec.and_self, ← and_opcodeMask,
        BitVec.and_assoc, hr, BitVec.and_zero, BitVec.or_zero]
    rw [hres, BitVec.zero_or] at h
    exact ⟨by simpa using congrArg (BitVec.setWidth 4) h, hres⟩
  · rintro ⟨rfl, hres⟩
    rw [hres, BitVec.zero_or]

/-- The opcode a row asks for: that of its pattern (R78). -/
def OpcodeRow.opcode (row : OpcodeRow) : BitVec 4 := opcodeField row.pattern

/-- The bits a row's mask wants clear: all but the opcode's (R71). -/
def OpcodeRow.reserved (row : OpcodeRow) : BitVec 32 := row.mask &&& ~~~0xF#32

/-- What a row asks of a word beside its opcode: the reserved bits clear, and `len` within the row's bound (R78). -/
def OpcodeRow.formatHolds (row : OpcodeRow) (cmd : BitVec 32) : Bool :=
  cmd &&& row.reserved == 0#32 && row.maxLen.all fun k => decide ((lenField cmd).toNat ≤ k)

/-- Every row masks the opcode and its reserved bits, and its pattern is its opcode alone. -/
theorem opcodeTable_masks : ∀ row ∈ opcodeTable,
    row.mask = row.reserved ||| 0xF#32 ∧ 0xF#32 &&& row.reserved = 0#32 ∧ row.pattern = row.opcode.setWidth 32 := by
  decide

/-- A row selects the words that have its opcode and keep its format (R78). -/
theorem selects_eq {row : OpcodeRow} (h : row ∈ opcodeTable) (cmd : BitVec 32) :
    row.selects cmd = (row.formatHolds cmd && row.opcode == opcodeField cmd) := by
  obtain ⟨hmask, hr, hpattern⟩ := opcodeTable_masks row h
  have hbits : (cmd &&& row.mask == row.pattern) = (cmd &&& row.reserved == 0#32 && row.opcode == opcodeField cmd) := by
    rw [Bool.eq_iff_iff, beq_iff_eq, hmask, hpattern, and_mask_eq_iff hr, Bool.and_eq_true, beq_iff_eq, beq_iff_eq,
      and_comm, eq_comm (a := row.opcode)]
  rw [OpcodeRow.selects, hbits, OpcodeRow.formatHolds, Bool.and_right_comm]
  cases row.maxLen <;> rfl

/-- The rows that select a word are those of its opcode whose format it keeps. -/
theorem filter_selects (cmd : BitVec 32) :
    opcodeTable.filter (·.selects cmd) =
      (opcodeTable.filter (·.opcode == opcodeField cmd)).filter (·.formatHolds cmd) := by
  rw [List.filter_filter]
  exact List.filter_congr fun row h => selects_eq h cmd

/-- The mnemonics of the rows that stand for what the decoder answers: the command's own, or none (R78). -/
def Decoded.mnemonics : Decoded → List String
  | .instr i => [i.mnemonic]
  | .illegal _ => []

/-- Where a word's opcode has one row, that row is the only one that can select it, and does so when the word keeps its format. -/
theorem mnemonics_of_row {cmd : BitVec 32} {op : BitVec 4} {clear : Bool} (row : OpcodeRow)
    (hrow : opcodeTable.filter (·.opcode == op) = [row]) (hop : (opcodeField cmd).toNat = op.toNat)
    (hclear : clear = true ↔ cmd &&& row.reserved = 0#32) :
    (opcodeTable.filter (·.selects cmd)).map (·.mnemonic) =
      if clear && row.maxLen.all fun k => decide ((lenField cmd).toNat ≤ k) then [row.mnemonic] else [] := by
  have hbits : (cmd &&& row.reserved == 0#32) = clear := by rw [Bool.eq_iff_iff, beq_iff_eq, hclear]
  rw [filter_selects, BitVec.eq_of_toNat_eq hop, hrow, List.filter_singleton, OpcodeRow.formatHolds, hbits, cond_eq_ite]
  split <;> rfl

/-- The rows have the opcodes 0x1..0x6 (R78). -/
theorem opcodeTable_opcodes : ∀ row ∈ opcodeTable, 1 ≤ row.opcode.toNat ∧ row.opcode.toNat ≤ 6 := by decide

/-- No row selects a word of a reserved opcode, 0x0 or 0x7..0xF (R79 point 1). -/
theorem mnemonics_of_reservedOpcode {cmd : BitVec 32}
    (h : ¬(1 ≤ (opcodeField cmd).toNat ∧ (opcodeField cmd).toNat ≤ 6)) :
    (opcodeTable.filter (·.selects cmd)).map (·.mnemonic) = [] := by
  rw [List.map_eq_nil_iff, List.filter_eq_nil_iff]
  intro row hmem hsel
  rw [selects_eq hmem, Bool.and_eq_true, beq_iff_eq] at hsel
  exact h (hsel.2 ▸ opcodeTable_opcodes row hmem)

/-- The rows that select a word are those that stand for what the decoder answers, opcode by opcode (R78). -/
theorem mnemonics_selected (cmd : BitVec 32) (data : BitVec 64) :
    (opcodeTable.filter (·.selects cmd)).map (·.mnemonic) = (decode cmd data).mnemonics := by
  unfold decode
  split
  next h =>
    rw [mnemonics_of_row (op := 1#4) opcodeTable[0] (by decide) h (reservedClearS_iff cmd)]
    cases reservedClearS cmd <;> rfl
  next h =>
    rw [mnemonics_of_row (op := 2#4) opcodeTable[1] (by decide) h (reservedClearM_iff cmd)]
    cases reservedClearM cmd <;> rfl
  next h =>
    rw [mnemonics_of_row (op := 3#4) opcodeTable[2] (by decide) h (reservedClearL_iff cmd)]
    by_cases hlen : (lenField cmd).toNat ≤ 8
    · cases reservedClearL cmd <;> simp [opcodeTable, hlen, Decoded.mnemonics, Instr.mnemonic]
    · cases reservedClearL cmd <;> simp [opcodeTable, hlen, Decoded.mnemonics]
  next h =>
    rw [mnemonics_of_row (op := 4#4) opcodeTable[3] (by decide) h (reservedClearN_iff cmd)]
    cases reservedClearN cmd <;> rfl
  next h =>
    rw [mnemonics_of_row (op := 5#4) opcodeTable[4] (by decide) h (reservedClearX_iff cmd)]
    cases reservedClearX cmd <;> rfl
  next h =>
    rw [mnemonics_of_row (op := 6#4) opcodeTable[5] (by decide) h (reservedClearX_iff cmd)]
    cases reservedClearX cmd <;> rfl
  next h1 h2 h3 h4 h5 h6 =>
    simp only [imp_false] at h1 h2 h3 h4 h5 h6
    exact mnemonics_of_reservedOpcode (by omega)

end Sys2Proof

namespace Sys2Proof.Machine

/-! ## A command's step -/

/-- A command of the core's host with an illegal word ends so, before any other check (R202, R205). -/
theorem step_illegalWord {s : State} {h : Nat} {c : Command} {rest : List Input}
    (hp : s.pending = .command h c :: rest) (hh : s.host = none ∨ s.host = some h) (hw : IllegalWord c.cmd) :
    step s = .next (raise .illegalCommand (takeCommand h rest s)) := by
  obtain ⟨why, hd⟩ := (decode_illegal_iff c.cmd c.data).mpr hw
  simp [step, hp, (admitsHost_iff h s).mpr hh, hd]

/-- A command's step that answers a next state came from the core's host, and ran the command or raised ILLEGAL_COMMAND. -/
theorem step_command_cases {s t : State} {h : Nat} {c : Command} {rest : List Input}
    (hp : s.pending = .command h c :: rest) (hs : step s = .next t) :
    (∃ i, decode c.cmd c.data = .instr i ∧ exec i (takeCommand h rest s) = .next t) ∨
    (IllegalWord c.cmd ∧ t = raise .illegalCommand (takeCommand h rest s)) := by
  obtain ⟨hq, _⟩ | ⟨_, hq, _⟩ | ⟨_, _, _, i, hq, _, hd, he⟩ | ⟨_, _, _, why, hq, _, hd, he⟩ | ⟨_, _, _, hq, _, he⟩ :=
    step_cases s <;> cases hp.symm.trans hq
  · exact .inl ⟨i, hd, he.symm.trans hs⟩
  · exact .inr ⟨(decode_illegal_iff c.cmd c.data).mp ⟨why, hd⟩, by simpa using (he.symm.trans hs).symm⟩
  · cases he.symm.trans hs

/-! ## `ERR` in the response (R76) -/

/-- `ERR` is 1 after a command exactly if it was 1 before or the status sets it (R31). -/
theorem errAfter_eq_one_iff (st : Status) (e : BitVec 1) :
    errAfter st e = 1#1 ↔ e = 1#1 ∨ st = .usageError ∨ st = .illegalCommand := by
  cases st <;> simp

/-- A command's response carries `ERR`, which is `errAfter` of its status (R31, R76). -/
theorem exec_err_of_status {i : Instr} {s t : State} {r : Response} (h : exec i s = .next t) (hr : t.resp = some r) :
    r.err = t.err ∧ t.err = errAfter r.status s.err := by
  obtain ⟨e, rfl, _⟩ | ⟨size, _, _, rfl⟩ | ⟨m, _, rfl⟩ | ⟨len, data, _, _, _, _, rfl⟩ | ⟨_, _, _, _, rfl⟩ |
    ⟨idx, _, _, _, rfl⟩ | ⟨idx, _, _, _, rfl⟩ := exec_shape i s t h <;> cases hr
  case inr.inr.inr.inl => exact ⟨rfl, (absorb_bufferOnly _ s).err⟩
  all_goals exact ⟨rfl, rfl⟩

/-- So does every command's step, an illegal word's among them (R76, R202). -/
theorem step_command_err {s t : State} {h : Nat} {c : Command} {rest : List Input}
    (hp : s.pending = .command h c :: rest) (hs : step s = .next t) :
    ∃ r, t.resp = some r ∧ r.err = t.err ∧ t.err = errAfter r.status s.err := by
  obtain ⟨i, _, he⟩ | ⟨_, rfl⟩ := step_command_cases hp hs
  · obtain ⟨r, hr⟩ := exec_next_resp i _ t he
    exact ⟨r, hr, by simpa using exec_err_of_status he hr⟩
  · exact ⟨_, rfl, rfl, by simp [CommandError.status]⟩

/-- With nothing pending the core waits (log entry 2). -/
theorem step_idle {s : State} (hp : s.pending = []) : step s = .next s := by
  simp [step, hp]

/-! ## `rdata` in the response (R77) -/

/-- `rdata` of a command that ends in status `st` in state `s` (R77). -/
def rdataOf (i : Instr) (st : Status) (s : State) : BitVec 64 :=
  match i, st with
  | .setmode _, .ok => s.mode.zeroExtend 64
  | .rdbyte idx, .ok => (stateByte s.A idx.toNat).zeroExtend 64
  | .rdlane idx, .ok => lane s.A idx.toNat
  | _, _ => 0

/-- A failed command returns no data (R77, R203). -/
@[simp] theorem rdataOf_error (i : Instr) (e : CommandError) (s : State) : rdataOf i e.status s = 0 := by
  cases i <;> cases e <;> rfl

/-- The response's data follows the command and its status (R77). -/
theorem exec_rdata_of_status {i : Instr} {s t : State} {r : Response} (h : exec i s = .next t) (hr : t.resp = some r) :
    r.rdata = rdataOf i r.status s := by
  obtain ⟨e, rfl, _⟩ | ⟨size, rfl, _, rfl⟩ | ⟨m, rfl, rfl⟩ | ⟨len, data, rfl, _, _, _, rfl⟩ | ⟨rfl, _, _, _, rfl⟩ |
    ⟨idx, rfl, _, _, rfl⟩ | ⟨idx, rfl, _, _, rfl⟩ := exec_shape i s t h <;> cases hr
  case inl => exact (rdataOf_error i e s).symm
  all_goals rfl

/-- The response to an illegal word carries no data (R77, R202). -/
theorem step_illegalWord_rdata {s t : State} {h : Nat} {c : Command} {rest : List Input} {r : Response}
    (hp : s.pending = .command h c :: rest) (hw : IllegalWord c.cmd) (hs : step s = .next t) (hr : t.resp = some r) :
    r.rdata = 0 := by
  obtain ⟨i, hd, _⟩ | ⟨_, rfl⟩ := step_command_cases hp hs
  · obtain ⟨why, hd'⟩ := (decode_illegal_iff c.cmd c.data).mpr hw
    simp [hd] at hd'
  · cases hr
    rfl

/-! ## The obligations -/

/-- Settles O9: the decoder by `decode_illegal_iff`, the step by `step_illegalWord`. -/
theorem decoderRejectsExactlyTheIllegalWords : Obligations.DecoderRejectsExactlyTheIllegalWords :=
  ⟨decode_illegal_iff, illegalWord_zero, fun _ _ _ _ hp hh hw => ⟨_, _, step_illegalWord hp hh hw, rfl, rfl⟩⟩

/-- Settles O10: both halves say which mnemonics the table selects, `mnemonics_selected`. -/
theorem decoderFollowsTheOpcodeTable : Obligations.DecoderFollowsTheOpcodeTable := by
  intro cmd data
  refine ⟨fun i hd => ?_, fun why hd => ?_⟩
  · rw [mnemonics_selected cmd data, hd, Decoded.mnemonics]
  · rw [← List.map_eq_nil_iff (f := OpcodeRow.mnemonic), mnemonics_selected cmd data, hd, Decoded.mnemonics]

/-- Settles O38: a command by `step_command_err`, a reset and an idle step by what they leave. -/
theorem errIsStickyAndEchoed : Obligations.ErrIsStickyAndEchoed := by
  intro s t hs
  refine ⟨fun h c rest hp => ?_, fun rest hp => ?_, fun hp => ?_⟩
  · obtain ⟨r, hr, hecho, herr⟩ := step_command_err hp hs
    exact ⟨r, hr, hecho, by rw [herr, errAfter_eq_one_iff]⟩
  · rw [step_reset hp, Host.Outcome.next.injEq] at hs
    rw [← hs, takeReset_err]
  · rw [step_idle hp, Host.Outcome.next.injEq] at hs
    rw [hs]

/-- Settles O40: a decoded command by `exec_rdata_of_status`, an illegal word by its own lemma. -/
theorem rdataIsZeroUnlessRead : Obligations.RdataIsZeroUnlessRead :=
  ⟨fun _ _ _ _ h hr => exec_rdata_of_status h hr, fun _ _ _ _ _ _ hp hw hs hr => step_illegalWord_rdata hp hw hs hr⟩

end Sys2Proof.Machine
end

section
/-! PROOF. The permutation family: each step of a round lane by lane (R102, R106, R107, R108), and the order of the rounds (R101). -/

namespace Sys2Proof.Machine

/-! ## Lane numbers by column and row (R12) -/

/-- Column and row of lane `x + 5y` (R12). -/
theorem laneIndex_column_row {x : Nat} (y : Nat) (hx : x < 5) : (x + 5 * y) % 5 = x ∧ (x + 5 * y) / 5 = y := by omega

/-- A lane of theta, by column and row (R102). -/
theorem lane_theta_columnRow (A : Lanes) {x y : Nat} (hx : x < 5) (hy : y < 5) :
    lane (theta A) (x + 5 * y) = lane A (x + 5 * y) ^^^ thetaMix A x := by
  rw [lane_theta A (by omega), (laneIndex_column_row y hx).1]

/-- A lane of chi, by column and row (R107). -/
theorem lane_chi_columnRow (A : Lanes) {x y : Nat} (hx : x < 5) (hy : y < 5) :
    lane (chi A) (x + 5 * y) =
      lane A (x + 5 * y) ^^^ (~~~ lane A ((x + 1) % 5 + 5 * y) &&& lane A ((x + 2) % 5 + 5 * y)) := by
  obtain ⟨hcol, hrow⟩ := laneIndex_column_row y hx
  rw [lane_chi A (by omega), hcol, hrow]

/-! ## The single pass of rho and pi (R103 to R106) -/

/-- The lanes that the single pass moves, `(source, destination, rotation)` for each of its steps: a step writes what the step
before it read, the first one `A[1]` (R103). -/
def rhoPiMoves : List (Nat × Nat × Nat) := (1 :: piln).zip (piln.zip rotc)

/-- The table of R106 lists the moves of the single pass, ordered by source. -/
theorem perLaneTable_perm_rhoPiMoves : perLaneTable.Perm rhoPiMoves := by decide

/-- The destinations of the steps (R105) are distinct lanes, none of them lane 0. -/
theorem rhoPi_destinations :
    ((piln.zip rotc).map Prod.fst).Nodup ∧ 0 ∉ (piln.zip rotc).map Prod.fst ∧ ∀ p ∈ piln.zip rotc, p.1 < 25 := by decide

/-- Every amount of R104 is less than the width of a lane. -/
theorem rotc_lt : ∀ r ∈ rotc, r < 64 := by decide

/-- The single pass leaves lane 0 (R106). -/
theorem lane_rhoPi_zero (A : Lanes) : lane (rhoPi A) 0 = lane A 0 :=
  rhoPiSteps_other _ _ A (by decide) rhoPi_destinations.2.1

/-- Each move of the single pass takes its source as it was before the pass (R106). -/
theorem lane_rhoPi_of_mem {A : Lanes} {row : Nat × Nat × Nat} (h : row ∈ rhoPiMoves) :
    lane (rhoPi A) row.2.1 = (lane A row.1).rotateLeft row.2.2 := by
  obtain ⟨m, hm, rfl⟩ := List.mem_iff_getElem.mp h
  obtain ⟨hnodup, -, hlt⟩ := rhoPi_destinations
  have hsteps : m < (piln.zip rotc).length := by
    rw [rhoPiMoves, List.length_zip] at hm
    omega
  have hget := rhoPiSteps_get (piln.zip rotc) (lane A 1) A hnodup hlt m hsteps
  rw [rotl64_eq_rotateLeft _ (rotc_lt _ (by simp))] at hget
  cases m with
  | zero => simpa [rhoPiMoves, rhoPi] using hget
  | succ m => simpa [rhoPiMoves, rhoPi] using hget

/-! ## Iota and the rounds (R101, R108) -/

/-- Iota XORs the constant into lane 0 (R108). -/
@[simp] theorem lane_iota_zero (A : Lanes) (rc : Lane) : lane (iota A rc) 0 = lane A 0 ^^^ rc :=
  lane_setLane_self A _ (by decide)

/-- Iota leaves every other lane (R108). -/
theorem lane_iota_ne (A : Lanes) (rc : Lane) {i : Nat} (h0 : 1 ≤ i) (hi : i < 25) : lane (iota A rc) i = lane A i :=
  lane_setLane_ne A _ hi (by omega)

/-- R109 lists 24 constants, one for each round. -/
theorem roundConstants_length : roundConstants.length = 24 := rfl

/-- The constants are `RC[0]` to `RC[23]` in order. -/
theorem roundConstants_eq_map : roundConstants = (List.range 24).map (roundConstants.getD · 0) := by decide

/-- The permutation is the rounds `0..23` in order, round `r` with `RC[r]` (R101). -/
theorem keccakF_eq_rounds (A : Lanes) :
    keccakF A = (List.range 24).foldl (fun B r => keccakRound B (roundConstants.getD r 0)) A := by
  rw [keccakF, ← List.foldl_map (f := (roundConstants.getD · 0)), ← roundConstants_eq_map]

/-! ## The obligations -/

/-- Settles O46: the table lists the moves of the single pass, each of which `lane_rhoPi_of_mem` gives. -/
theorem rhoPiMatchesThePerLaneForm : Obligations.RhoPiMatchesThePerLaneForm :=
  ⟨fun A => ⟨lane_rhoPi_zero A, fun _ hrow => lane_rhoPi_of_mem (perLaneTable_perm_rhoPiMoves.mem_iff.mp hrow)⟩,
    by decide, by decide⟩

/-- Settles O45: theta by column and row, its rotation by `rotl64_eq_rotateLeft`. -/
theorem thetaXorsNeighbourParities : Obligations.ThetaXorsNeighbourParities := by
  intro A x y hx hy
  rw [lane_theta_columnRow A hx hy, thetaMix, rotl64_eq_rotateLeft _ (by decide), columnParity, columnParity, ← BitVec.xor_assoc]

/-- Settles O47: chi by column and row; a row of one value `v` gets `v ^^^ (~~~v &&& v)`, which is `v`. -/
theorem chiCombinesEachRow : Obligations.ChiCombinesEachRow := by
  refine ⟨fun A x y hx hy => lane_chi_columnRow A hx hy, fun A y v hy _ hrow x hx => ?_⟩
  rw [lane_chi_columnRow A hx hy, hrow x hx, hrow _ (Nat.mod_lt _ (by decide)), hrow _ (Nat.mod_lt _ (by decide))]
  simp

/-- Settles O48: iota lane by lane, and the rounds by `keccakF_eq_rounds`. -/
theorem roundsRunInOrderWithTheirConstants : Obligations.RoundsRunInOrderWithTheirConstants :=
  ⟨fun A rc => ⟨lane_iota_zero A rc, fun _ h0 hi => lane_iota_ne A rc h0 hi⟩, roundConstants_length, keccakF_eq_rounds⟩

end Sys2Proof.Machine
end

section
/-! PROOF. The configuration family: which command writes `capacityWords` (R132). -/

namespace Sys2Proof.Machine

/-- Finalize writes only lanes: the last word and the end of the padding, then the permutation (R161). -/
theorem finalize_bufferOnly (s : State) : BufferOnly s (finalize s) :=
  ⟨rfl, rfl, rfl, rfl, rfl, rfl, rfl, rfl⟩

/-- A command that answers a next state is an INIT with a supported size, or leaves `capacityWords` (R132). -/
theorem exec_capacityWords {i : Instr} {s t : State} (h : exec i s = .next t) :
    (∃ size, i = .init size ∧ supportedSize size = true) ∨ t.capacityWords = s.capacityWords := by
  obtain ⟨e, rfl, _⟩ | ⟨size, rfl, hsize, _⟩ | ⟨m, _, rfl⟩ | ⟨len, data, _, _, _, _, rfl⟩ | ⟨_, _, _, _, rfl⟩ |
    ⟨idx, _, _, _, rfl⟩ | ⟨idx, _, _, _, rfl⟩ := exec_shape i s t h
  · exact .inr (raise_capacityWords e s)
  · exact .inl ⟨size, rfl, hsize⟩
  · exact .inr (by simp)
  · exact .inr (absorb_bufferOnly _ s).capacityWords
  · exact .inr (finalize_bufferOnly s).capacityWords
  · exact .inr (respond_capacityWords _ _ s)
  · exact .inr (respond_capacityWords _ _ s)

/-- Settles O19: `exec_capacityWords`, and the derived quantities follow `capacityWords` (R27). -/
theorem onlyInitWritesTheCapacity : Obligations.OnlyInitWritesTheCapacity := by
  intro i s t h hinit
  obtain ⟨size, hi, hsize⟩ | hcap := exec_capacityWords h
  · exact absurd ⟨size, hi, (supportedSize_iff size).mp hsize⟩ hinit
  · exact ⟨hcap, outputBits_congr hcap, rateWords_congr hcap⟩

end Sys2Proof.Machine
end

section
/-! PROOF. The absorption family: the algorithm of R141 against the byte-serial form (R143). -/

namespace Sys2Proof.Machine

/-! ## The word in flight (R141) -/

/-- With no word in flight, nothing is needed to complete one (R141). -/
theorem need_of_empty {s : State} (h : s.byteIndex = 0) : need s = 0 := by
  simp [need, h]

/-- The bytes needed and the bytes in flight make up the word (R141). -/
theorem byteIndex_add_need {s : State} (h : s.byteIndex ≠ 0) : s.byteIndex.toNat + need s = 8 := by
  have hpos : s.byteIndex.toNat ≠ 0 := fun h0 => h (BitVec.eq_of_toNat_eq h0)
  have hlt := s.byteIndex.isLt
  unfold need
  omega

/-- A clean `saved` is 0 when no word is in flight (R26). -/
theorem saved_of_empty {s : State} (hc : s.SavedClean) (h : s.byteIndex = 0) : s.saved = 0 := by
  simpa [State.SavedClean, h] using hc

/-! ## The branches of R141 -/

/-- A sequence too short to complete the word is buffered (R141 step 1). -/
theorem absorb_short {X : List Byte} {s : State} (h : X.length < need s) : absorb X s = bufferBytes X s :=
  if_pos h

/-- With no word in flight the whole words follow at once (R141 step 3). -/
theorem absorb_of_empty (X : List Byte) {s : State} (h : s.byteIndex = 0) :
    absorb X s = absorbWords (X.length / 8) X s := by
  simp [absorb, need_of_empty h, h]

/-- A word in flight that the sequence completes goes into the rate, and the whole words follow (R141 steps 2 and 3). -/
theorem absorb_completing {X : List Byte} {s : State} (hb : s.byteIndex ≠ 0) (h : need s ≤ X.length) :
    absorb X s =
      absorbWords ((X.drop (need s)).length / 8) (X.drop (need s)) (completeWord (bufferBytes (X.take (need s)) s)) := by
  rw [absorb, if_neg (Nat.not_lt.mpr h), if_pos hb]

/-! ## The word form against the byte-serial form (R143) -/

/-- From an empty buffer, whole words and the bytes left over are absorbed as byte by byte (R141 steps 3 and 4, R143). -/
theorem absorbWords_eq_absorbSerial {k : Nat} {X : List Byte} {s : State} (hb : s.byteIndex = 0) (hs : s.saved = 0)
    (hk : X.length / 8 = k) : absorbWords k X s = absorbSerial X s := by
  induction k generalizing X s with
  | zero => rw [absorbWords, absorbSerial_short X s (by simp [hb]; omega)]
  | succ k ih =>
    have hword : (X.take 8).length = 8 := by simp; omega
    calc absorbWords (k + 1) X s
        = absorbWords k (X.drop 8) (absorbWord (packLe (X.take 8)) s) := rfl
      _ = absorbSerial (X.drop 8) (absorbWord (packLe (X.take 8)) s) := ih (by simp [hb]) (by simp [hs]) (by simp; omega)
      _ = absorbSerial (X.drop 8) (absorbSerial (X.take 8) s) := by rw [absorbSerial_word _ s hb hs hword]
      _ = absorbSerial X s := by rw [← absorbSerial_append, List.take_append_drop]

/-- The two forms agree where the sequence completes the word in flight (R143). -/
theorem absorb_completing_eq_absorbSerial {X : List Byte} {s : State} (hb : s.byteIndex ≠ 0) (h : need s ≤ X.length) :
    absorb X s = absorbSerial X s := by
  have hfull : s.byteIndex.toNat + (X.take (need s)).length = 8 := by
    rw [List.length_take_of_le h, byteIndex_add_need hb]
  rw [absorb_completing hb h, absorbWords_eq_absorbSerial (by simp) (by simp) rfl, ← absorbSerial_complete _ s hfull,
    ← absorbSerial_append, List.take_append_drop]

/-! ## The obligations -/

/-- Settles O21, along the branches of R141: no word in flight, a word that stays in flight, a word completed. -/
theorem byteSerialFormAgreesWithAbsorb : Obligations.ByteSerialFormAgreesWithAbsorb := by
  intro X s hclean
  by_cases hb : s.byteIndex = 0
  · rw [absorb_of_empty X hb, absorbWords_eq_absorbSerial hb (saved_of_empty hclean hb) rfl]
  · have hneed := byteIndex_add_need hb
    by_cases hshort : X.length < need s
    · rw [absorb_short hshort, absorbSerial_short X s (by omega)]
    · exact absorb_completing_eq_absorbSerial hb (Nat.not_lt.mp hshort)

end Sys2Proof.Machine
end

section
/-! PROOF. The finalize and squeeze family: what FINAL pads (R160, R161), the commands between INIT and FINAL as one absorption
(R144, R236), and HASH run by the core's own host (R82, R167). -/

namespace Sys2Proof

/-! ## Decoding an encoded command (R71, R80) -/

/-- An opcode has no bit above its field (R71). -/
theorem getLsbD_opcode {op : BitVec 32} {k : Nat} (hop : op.toNat < 2 ^ 4) (hk : 4 ≤ k) : op.getLsbD k = false :=
  Nat.testBit_lt_two_pow (lt_of_lt_of_le hop (Nat.pow_le_pow_right (by decide) hk))

/-- Above the opcode, an encoded word has no bit outside its operand's field (R71). -/
theorem encodedWord_reserved {n : Nat} (x : BitVec n) {op : BitVec 32} (a : Nat) {k : Nat} (hop : op.toNat < 2 ^ 4) (h4 : 4 ≤ k)
    (hk : k < a ∨ a + n ≤ k) : (x.zeroExtend 32 <<< a ||| op).getLsbD k = false := by
  have hopBit := getLsbD_opcode hop h4
  obtain hlt | hge := hk
  · simp [hopBit, hlt]
  · simp [hopBit, BitVec.getLsbD_of_ge x (k - a) (by omega)]

/-- An operand stands in its field of the encoded word (R73). -/
theorem encodedWord_field {n : Nat} (x : BitVec n) {op : BitVec 32} (a : Nat) (hop : op.toNat < 2 ^ 4) (ha : 4 ≤ a)
    (hn : a + n ≤ 32) : (x.zeroExtend 32 <<< a ||| op).extractLsb' a n = x := by
  ext k hk
  rw [← BitVec.getLsbD_eq_getElem, ← BitVec.getLsbD_eq_getElem, BitVec.getLsbD_extractLsb', BitVec.getLsbD_or,
    getLsbD_opcode hop (by omega)]
  simp [show a + k < 32 by omega, hk]

/-- The word of either read keeps format X and carries its index (R71, R80). -/
theorem encodedWord_formatX (idx : BitVec 8) {op : BitVec 32} (hop : op.toNat < 2 ^ 4) :
    reservedClearX (idx.zeroExtend 32 <<< 8 ||| op) = true ∧ idxField (idx.zeroExtend 32 <<< 8 ||| op) = idx := by
  rw [reservedClearX, Bool.and_eq_true, beq_iff_eq, beq_iff_eq, extractLsb'_eq_zero_iff, extractLsb'_eq_zero_iff]
  exact ⟨⟨fun k hk => encodedWord_reserved idx 8 hop (by omega) (by omega),
    fun k hk => encodedWord_reserved idx 8 hop (by omega) (by omega)⟩, encodedWord_field idx 8 hop (by decide) (by decide)⟩

/-- Every well-formed command decodes from its encoding: the opcode selects its format, whose reserved bits are clear and whose
field is the operand. -/
theorem decode_encode {i : Instr} (h : i.wellFormed = true) : decode (encode i).cmd (encode i).data = .instr i := by
  cases i with
  | init size =>
    have hop : (opcodeField (encode (.init size)).cmd).toNat = 1 := Laws.OpcodeOf.init size
    have hclear : reservedClearS (encode (.init size)).cmd = true := by
      rw [reservedClearS, beq_iff_eq, extractLsb'_eq_zero_iff]
      exact fun k hk => encodedWord_reserved size 16 (by decide) (by omega) (by omega)
    have hfield : sizeField (encode (.init size)).cmd = size := encodedWord_field size 16 (by decide) (by decide) (by decide)
    simp [decode, hop, hclear, hfield]
  | setmode m =>
    have hop : (opcodeField (encode (.setmode m)).cmd).toNat = 2 := Laws.OpcodeOf.setmode m
    have hclear : reservedClearM (encode (.setmode m)).cmd = true := by
      rw [reservedClearM, Bool.and_eq_true, beq_iff_eq, beq_iff_eq, extractLsb'_eq_zero_iff, extractLsb'_eq_zero_iff]
      exact ⟨fun k hk => encodedWord_reserved m 16 (by decide) (by omega) (by omega),
        fun k hk => encodedWord_reserved m 16 (by decide) (by omega) (by omega)⟩
    have hfield : modeField (encode (.setmode m)).cmd = m := encodedWord_field m 16 (by decide) (by decide) (by decide)
    simp [decode, hop, hclear, hfield]
  | absorb len data =>
    have hlen : len.toNat ≤ 8 := of_decide_eq_true h
    have hop : (opcodeField (encode (.absorb len data)).cmd).toNat = 3 := Laws.OpcodeOf.absorb len data
    have hclear : reservedClearL (encode (.absorb len data)).cmd = true := by
      rw [reservedClearL, beq_iff_eq, extractLsb'_eq_zero_iff]
      exact fun k hk => encodedWord_reserved len 4 (by decide) (by omega) (by omega)
    have hfield : lenField (encode (.absorb len data)).cmd = len :=
      encodedWord_field len 4 (by decide) (by decide) (by decide)
    have hdata : (encode (.absorb len data)).data = data := rfl
    simp [decode, hop, hclear, hfield, hlen, hdata]
  | final => rfl
  | rdbyte idx =>
    have hop : (opcodeField (encode (.rdbyte idx)).cmd).toNat = 5 := Laws.OpcodeOf.rdbyte idx
    obtain ⟨hclear, hfield⟩ : reservedClearX (encode (.rdbyte idx)).cmd = true ∧ idxField (encode (.rdbyte idx)).cmd = idx :=
      encodedWord_formatX idx (by decide)
    simp [decode, hop, hclear, hfield]
  | rdlane idx =>
    have hop : (opcodeField (encode (.rdlane idx)).cmd).toNat = 6 := Laws.OpcodeOf.rdlane idx
    obtain ⟨hclear, hfield⟩ : reservedClearX (encode (.rdlane idx)).cmd = true ∧ idxField (encode (.rdlane idx)).cmd = idx :=
      encodedWord_formatX idx (by decide)
    simp [decode, hop, hclear, hfield]

end Sys2Proof

namespace Sys2Proof.Machine

/-! ## FINAL (R160, R161, R163) -/

/-- The lanes as finalize pads them, before it permutes (R161 steps 1 to 3). -/
def paddedLanes (s : State) : Lanes :=
  (xorLane (s.rateWords - 1) lastRateBit (xorLane s.wordIndex.toNat (s.saved ^^^ paddingWord s.mode s.byteIndex) s)).A

/-- Finalize permutes the padded lanes and writes nothing else (R161). -/
theorem finalize_eq (s : State) : finalize s = { s with A := keccakF (paddedLanes s) } := rfl

/-- A lane as finalize pads it: two XORs, both where the two lanes meet (R161). -/
theorem lane_paddedLanes (s : State) {i : Nat} (hi : i < 25) :
    lane (paddedLanes s) i =
      lane s.A i ^^^ (if i = s.wordIndex.toNat then s.saved ^^^ paddingWord s.mode s.byteIndex else 0) ^^^
        (if i = s.rateWords - 1 then lastRateBit else 0) := by
  rw [paddedLanes, xorLane_A, xorLane_A, lane_xor_two _ _ _ _ _ hi, BitVec.xor_assoc]
  simp only [eq_comm (a := i)]

/-- FINAL where both of its lanes exist (R163). -/
theorem exec_final_of_lanes {s : State} (hp : s.phase = .absorbing) (hw : s.wordIndex.toNat < 25)
    (hc : s.capacityWords.toNat < 25) : exec .final s = .next (respond .ok 0 (setPhase .finalized (finalize s))) := by
  obtain ⟨hn, _⟩ | ⟨_, hn, _⟩ | ⟨_, _, hn, _⟩ | ⟨_, _, _, he⟩ := exec_final_cases s
  · exact absurd hp hn
  · omega
  · omega
  · exact he

/-- FINAL in a context completes: its lanes exist by R25 and R27. -/
theorem exec_final_of_inv {s : State} (hp : s.phase = .absorbing) (hi : s.Inv) :
    exec .final s = .next (respond .ok 0 (setPhase .finalized (finalize s))) := by
  obtain ⟨_, hpos, _⟩ := hi (by simp [hp])
  rw [State.rateWords] at hpos
  exact exec_final_of_lanes hp (by omega) (by omega)

/-- Settles O31: FINAL permutes `paddedLanes`, which `lane_paddedLanes` gives lane by lane. -/
theorem finalPadsAndPermutes : Obligations.FinalPadsAndPermutes := by
  intro s hp hw hc
  refine ⟨paddedLanes s, fun _ hi => lane_paddedLanes s hi, ?_⟩
  rw [exec_final_of_lanes hp hw hc, finalize_eq]
  rfl

/-! ## The commands between INIT and FINAL (R144, R236) -/

/-- Absorption keeps the invariant of a context (R24 to R27). -/
theorem absorbSerial_inv (X : List Byte) {s : State} (hi : s.Inv) : (absorbSerial X s).Inv := by
  intro hp
  have hframe := absorbSerial_bufferOnly X s
  obtain ⟨hcap, hpos, hclean⟩ := hi (hframe.phase ▸ hp)
  exact ⟨by rwa [hframe.capacityWords], absorbSerial_position X s hpos, absorbSerial_clean X s hclean⟩

/-- The last of two dressings is what is seen. -/
@[simp] theorem dress_dress (m m' : BitVec 1) (r r' : Option Response) (s : State) :
    dress m r (dress m' r' s) = dress m r s := rfl

/-- SETMODE or ABSORB in a context: it absorbs its input bytes, byte by byte, and sets `MODE` (R133, R143, R145). -/
theorem exec_absorbOrSetmode {i : Instr} {s : State} (ha : absorbOrSetmode i = true) (hp : s.phase = .absorbing) (hi : s.Inv) :
    ∃ r, exec i s = .next (dress (modeAfter s.mode i) r (absorbSerial (inputOf i) s)) := by
  cases i with
  | setmode m => exact ⟨_, rfl⟩
  | absorb len data =>
    have hlen : len.toNat ≤ 8 := of_decide_eq_true ha
    obtain ⟨_, hpos, hclean⟩ := hi (by simp [hp])
    have hrate : s.rateWords ≤ 25 := Nat.sub_le _ _
    obtain ⟨hn, _⟩ | ⟨_, hn, _⟩ | ⟨_, _, _, hn, _⟩ | ⟨_, _, _, he⟩ := exec_absorb_cases len data s
    · omega
    · exact absurd hp hn
    · omega
    · have hmode : (absorbSerial (inputBytes len.toNat data) s).mode = s.mode := (absorbSerial_bufferOnly _ s).mode
      rw [byteSerialFormAgreesWithAbsorb _ s hclean] at he
      exact ⟨_, he.trans (by simp only [modeAfter, inputOf, ← hmode]; rfl)⟩
  | init size => cases ha
  | final => cases ha
  | rdbyte idx => cases ha
  | rdlane idx => cases ha

/-- A sequence of them absorbs the concatenation of their bytes, wherever `MODE` is set (R144, R236). -/
theorem execAll_absorbOrSetmode {p : List Instr} {s : State} (ha : ∀ i ∈ p, absorbOrSetmode i = true)
    (hp : s.phase = .absorbing) (hi : s.Inv) :
    ∃ r, execAll p s = .next (dress (p.foldl modeAfter s.mode) r (absorbSerial (p.flatMap inputOf) s)) := by
  induction p generalizing s with
  | nil => exact ⟨s.resp, rfl⟩
  | cons i is ih =>
    obtain ⟨r, he⟩ := exec_absorbOrSetmode (ha i (by simp)) hp hi
    obtain ⟨r', hrest⟩ := ih (s := dress (modeAfter s.mode i) r (absorbSerial (inputOf i) s))
      (fun j hj => ha j (by simp [hj])) ((absorbSerial_bufferOnly _ s).phase.trans hp) (absorbSerial_inv _ hi)
    refine ⟨r', ?_⟩
    rw [execAll, he, List.flatMap_cons, absorbSerial_append, List.foldl_cons]
    rw [absorbSerial_dress, dress_dress] at hrest
    exact hrest

/-- What follows a next state is run on it. -/
@[simp] theorem andThen_next {α β : Type} (a : α) (f : α → Host.Outcome β Fault Refusal) : andThen (.next a) f = f a := rfl

/-- One command alone (R60). -/
@[simp] theorem execAll_singleton (i : Instr) (s : State) : execAll [i] s = exec i s := by
  rw [execAll]
  cases exec i s <;> rfl

/-- The commands one after the other (R60). -/
theorem execAll_append (p q : List Instr) (s : State) : execAll (p ++ q) s = andThen (execAll p s) (execAll q) := by
  induction p generalizing s with
  | nil => rfl
  | cons i is ih =>
    rw [List.cons_append, execAll, execAll]
    cases exec i s with
    | next t => exact ih t
    | fault r => rfl
    | refused r => rfl

/-! ## From the fresh context to the digest (R164) -/

/-- The rate of a fresh context, of a size the core takes (R6, R27). -/
theorem rateWords_freshContext {size : BitVec 16} (s : State) (h : supportedSize size = true) :
    (freshContext size s).rateWords = 25 - size.toNat / 32 := by
  rw [State.rateWords, freshContext_capacityWords, capacityFor_toNat h]

/-- A fresh context digests to the size it was made for (R6, R27). -/
theorem outputBits_freshContext {size : BitVec 16} (s : State) (h : supportedSize size = true) :
    (freshContext size s).outputBits = size.toNat := by
  rw [State.outputBits, freshContext_capacityWords, capacityFor_toNat h]
  obtain hs | hs | hs := (supportedSize_iff size).mp h <;> rw [hs]

/-- The context that INIT makes meets the invariant (R232). -/
theorem freshContext_inv {size : BitVec 16} (s : State) (h : supportedSize size = true) : (freshContext size s).Inv := by
  intro _
  rw [rateWords_freshContext s h, freshContext_capacityWords, capacityFor_toNat h]
  obtain hs | hs | hs := (supportedSize_iff size).mp h <;> simp [hs, State.SavedClean]

/-- What FINAL leaves of a sequence absorbed into a fresh context, in the mode set meanwhile: the sponge of R164. -/
theorem finalize_freshContext {size : BitVec 16} (s : State) (m : BitVec 1) (r : Option Response) (X : List Byte)
    (h : supportedSize size = true) :
    (finalize (dress m r (absorbSerial X (respond .ok 0 (freshContext size s))))).A = spongeState size.toNat m X := by
  have hrate : (respond .ok 0 (freshContext size s)).rateWords = 25 - size.toNat / 32 := rateWords_freshContext s h
  have hbytes : rateBytes size.toNat = 8 * (25 - size.toNat / 32) := by
    unfold rateBytes
    omega
  have hpos : 0 < 25 - size.toNat / 32 := by
    obtain hs | hs | hs := (supportedSize_iff size).mp h <;> simp [hs]
  have hsponge := finalize_absorbSerial X (respond .ok 0 (freshContext size s)) m rfl rfl rfl (hrate ▸ hpos)
  rw [hrate, ← hbytes] at hsponge
  exact hsponge

/-- A whole hash after INIT: FINAL leaves the sponge on the concatenated input, in the mode last set (R161, R164, R236). -/
theorem execAll_final_of_fresh {size : BitVec 16} {p : List Instr} (s : State) (hsize : supportedSize size = true)
    (ha : ∀ i ∈ p, absorbOrSetmode i = true) :
    ∃ t, execAll (p ++ [.final]) (respond .ok 0 (freshContext size s)) = .next t ∧ t.phase = .finalized ∧
      t.outputBits = size.toNat ∧ t.err = s.err ∧
      t.A = spongeState size.toNat (p.foldl modeAfter 0) (p.flatMap inputOf) := by
  have hinv : (respond .ok 0 (freshContext size s)).Inv := freshContext_inv s hsize
  have hframe := absorbSerial_bufferOnly (p.flatMap inputOf) (respond .ok 0 (freshContext size s))
  obtain ⟨r, habsorb⟩ := execAll_absorbOrSetmode ha rfl hinv
  have hfinal := exec_final_of_inv
    (s := dress (p.foldl modeAfter 0) r (absorbSerial (p.flatMap inputOf) (respond .ok 0 (freshContext size s))))
    hframe.phase (absorbSerial_inv _ hinv)
  have hrun := (execAll_append p [.final] _).trans (congrArg (andThen · (execAll [.final])) habsorb)
  rw [andThen_next, execAll_singleton] at hrun
  exact ⟨_, hrun.trans hfinal, rfl, (outputBits_congr hframe.capacityWords).trans (outputBits_freshContext s hsize), hframe.err,
    finalize_freshContext s _ r _ hsize⟩

/-! ## HASH's input: ABSORBN (R81) -/

/-- The length of a command of ABSORBN fits its field (R73, R81). -/
theorem toNat_ofNat_min_eight (n : Nat) : (BitVec.ofNat 4 (min 8 n)).toNat = min 8 n := by
  rw [BitVec.toNat_ofNat]
  omega

/-- Command `c` of ABSORBN carries the `c`-th eight bytes, or what is left of them (R81). -/
theorem inputOf_absorbN_chunk (X : List Byte) (c : Nat) :
    inputOf (.absorb (BitVec.ofNat 4 (min 8 (X.length - 8 * c))) (packLe ((X.drop (8 * c)).take 8))) =
      (X.drop (8 * c)).take 8 := by
  have hlen : ((X.drop (8 * c)).take 8).length = min 8 (X.length - 8 * c) := by simp
  rw [inputOf, toNat_ofNat_min_eight, ← hlen, inputBytes_packLe _ (by omega)]

/-- A sequence is its chunks of eight in order. -/
theorem flatMap_chunks (X : List Byte) (n : Nat) :
    (List.range n).flatMap (fun c => (X.drop (8 * c)).take 8) = X.take (8 * n) := by
  induction n with
  | zero => simp
  | succ n ih => rw [List.range_succ, List.flatMap_append, ih, List.flatMap_singleton, Nat.mul_succ, List.take_add]

/-- ABSORBN carries the whole sequence (R81). -/
theorem absorbN_flatMap_inputOf (X : List Byte) : (absorbN X).flatMap inputOf = X := by
  rw [absorbN, List.flatMap_map]
  simp only [inputOf_absorbN_chunk]
  rw [flatMap_chunks, List.take_of_length_le (by omega)]

/-- ABSORBN is made of ABSORB commands that the encoding has (R81). -/
theorem absorbN_absorbOrSetmode (X : List Byte) : ∀ i ∈ absorbN X, absorbOrSetmode i = true := by
  intro i hi
  obtain ⟨c, _, rfl⟩ := List.mem_map.mp hi
  exact decide_eq_true (by rw [toNat_ofNat_min_eight]; exact Nat.min_le_left _ _)

/-- ABSORBN leaves `MODE` (R28). -/
theorem absorbN_foldl_modeAfter (X : List Byte) (m : BitVec 1) : (absorbN X).foldl modeAfter m = m := by
  simp [absorbN, List.foldl_map, modeAfter]

/-! ## Commands delivered by the core's own host (R60, R62, R70) -/

/-- No command changes which host drives the core (R62). -/
theorem exec_host {i : Instr} {s t : State} (h : exec i s = .next t) : t.host = s.host := by
  obtain ⟨e, rfl, _⟩ | ⟨_, _, _, rfl⟩ | ⟨_, _, rfl⟩ | ⟨_, _, _, _, _, _, rfl⟩ | ⟨_, _, _, _, rfl⟩ | ⟨_, _, _, _, rfl⟩ |
    ⟨_, _, _, _, rfl⟩ := exec_shape i s t h
  case inr.inr.inr.inl => exact (absorb_bufferOnly _ s).host
  all_goals rfl

/-- An encoded command that the core's host delivers is executed, and the host is known from then on (R60, R62). -/
theorem deliver_encode {i : Instr} {h : Nat} {s : State} (hw : i.wellFormed = true) (hh : s.host = none ∨ s.host = some h) :
    deliver h (encode i) s = exec i (takeCommand h s.pending s) := by
  have hadmit : admitsHost h { s with pending := .command h (encode i) :: s.pending } = true := (admitsHost_iff h _).mpr hh
  simp only [deliver, step, hadmit, decode_encode hw, if_true]
  rfl

/-- A core that knows its host takes a command and is as before (R62). -/
theorem takeCommand_of_host {h : Nat} {s : State} (hh : s.host = some h) : takeCommand h s.pending s = s := by
  rw [takeCommand, setHostSide, ← hh]

/-- Commands that its host delivers to the core have the effect of their meanings in order (R60). -/
theorem runCommands_of_execAll {h : Nat} {p : List Instr} {s t : State} (hw : ∀ i ∈ p, i.wellFormed = true)
    (hh : s.host = some h) (he : execAll p s = .next t) : ∃ rs, runCommands h p s = .next (t, rs) ∧ t.host = some h := by
  induction p generalizing s with
  | nil =>
    cases he
    exact ⟨[], rfl, hh⟩
  | cons i is ih =>
    rw [execAll] at he
    cases hi : exec i s with
    | next u =>
      rw [hi] at he
      obtain ⟨rs, hrest, ht⟩ := ih (fun j hj => hw j (by simp [hj])) ((exec_host hi).trans hh) he
      refine ⟨u.resp.toList ++ rs, ?_, ht⟩
      rw [runCommands, deliver_encode (hw i (by simp)) (.inr hh), takeCommand_of_host hh, hi, andThen_next, hrest, andThen_next]
    | fault r => rw [hi] at he; cases he
    | refused r => rw [hi] at he; cases he

/-- Reads of digest bytes answer with them, in order, and leave the digest (R165). -/
theorem runCommands_rdbytes {h : Nat} {js : List Nat} {s : State} (hh : s.host = some h) (hp : s.phase = .finalized)
    (hj : ∀ j ∈ js, j < s.outputBits / 8) :
    ∃ t, runCommands h (js.map fun j => .rdbyte (BitVec.ofNat 8 j)) s =
      .next (t, js.map fun j => ⟨.ok, s.err, zextByte (stateByte s.A j)⟩) := by
  induction js generalizing s with
  | nil => exact ⟨s, rfl⟩
  | cons j js ih =>
    have hdigest := hj j (by simp)
    have hidx : (BitVec.ofNat 8 j).toNat = j := by
      have hcap := s.capacityWords.isLt
      rw [State.outputBits] at hdigest
      rw [BitVec.toNat_ofNat]
      omega
    have hread : exec (.rdbyte (BitVec.ofNat 8 j)) s = .next (respond .ok (zextByte (stateByte s.A j)) s) := by
      obtain ⟨hn | hn, _⟩ | ⟨_, _, he⟩ := exec_rdbyte_cases (BitVec.ofNat 8 j) s
      · exact absurd hp hn
      · omega
      · rwa [hidx] at he
    obtain ⟨t, hrest⟩ := ih (s := respond .ok (zextByte (stateByte s.A j)) s) hh hp (fun k hk => hj k (by simp [hk]))
    refine ⟨t, ?_⟩
    rw [List.map_cons, runCommands, deliver_encode rfl (.inr hh), takeCommand_of_host hh, hread, andThen_next, hrest]
    rfl

/-! ## HASH (R82, R167) -/

/-- The low byte of a byte, zero-extended, is the byte (R9). -/
@[simp] theorem byteOf_zextByte (b : Byte) : byteOf (zextByte b) 0 = b := by
  ext k hk
  rw [← BitVec.getLsbD_eq_getElem, ← BitVec.getLsbD_eq_getElem, getLsbD_byteOf _ _ hk]
  simp [zextByte, hk, show k < 64 by omega]

/-- A command that may stand between INIT and FINAL is well-formed. -/
theorem wellFormed_of_absorbOrSetmode {i : Instr} (h : absorbOrSetmode i = true) : i.wellFormed = true := by
  cases i with
  | absorb len data => exact h
  | setmode m => rfl
  | init size => rfl
  | final => rfl
  | rdbyte idx => rfl
  | rdlane idx => rfl

/-- The first `k` bytes of the digest are those that HASH reads (R82, R167). -/
theorem digest_take (size : Nat) (m : BitVec 1) (X : List Byte) (k : Nat) :
    (digest size m X).take k = (List.range (min k (size / 8))).map (stateByte (spongeState size m X)) := by
  rw [digest, ← List.map_take, List.take_range]

/-- HASH's INIT, of a supported size, answers OK with the fresh context (R82, R130). -/
theorem runCommands_init {h : Nat} {size : BitVec 16} {s : State} (hsize : supportedSize size = true)
    (hh : s.host = none ∨ s.host = some h) :
    runCommands h [.init size] s =
      .next (respond .ok 0 (freshContext size (takeCommand h s.pending s)), [⟨.ok, s.err, 0⟩]) := by
  rw [runCommands, deliver_encode rfl hh, exec_init_supported _ hsize, andThen_next]
  rfl

/-- HASH's commands from SETMODE to FINAL leave the sponge on the whole input, in the mode given (R82, R164). -/
theorem runCommands_setmode_absorbN_final {h : Nat} {size : BitVec 16} {s : State} (m : BitVec 1) (X : List Byte)
    (hsize : supportedSize size = true) (hh : s.host = some h) :
    ∃ t rs, runCommands h (.setmode m :: absorbN X ++ [.final]) (respond .ok 0 (freshContext size s)) = .next (t, rs) ∧
      t.host = some h ∧ t.phase = .finalized ∧ t.outputBits = size.toNat ∧ t.A = spongeState size.toNat m X := by
  have ha : ∀ i ∈ Instr.setmode m :: absorbN X, absorbOrSetmode i = true :=
    List.forall_mem_cons.mpr ⟨rfl, absorbN_absorbOrSetmode X⟩
  have hw : ∀ i ∈ Instr.setmode m :: absorbN X ++ [.final], i.wellFormed = true := by
    intro i hi
    obtain hi | hi := List.mem_append.mp hi
    · exact wellFormed_of_absorbOrSetmode (ha i hi)
    · rw [List.mem_singleton.mp hi]
      rfl
  obtain ⟨t, he, hphase, hbits, _, hA⟩ := execAll_final_of_fresh s hsize ha
  obtain ⟨rs, hrun, hhost⟩ := runCommands_of_execAll (s := respond .ok 0 (freshContext size s)) hw hh he
  rw [List.foldl_cons, modeAfter, absorbN_foldl_modeAfter, List.flatMap_cons, inputOf, List.nil_append,
    absorbN_flatMap_inputOf] at hA
  exact ⟨t, rs, hrun, hhost, hphase, hbits, hA⟩

/-- Settles O50: INIT, the commands to FINAL, and the reads of the digest, each by its own lemma. -/
theorem hashReturnsTheTruncatedDigest : Obligations.HashReturnsTheTruncatedDigest := by
  intro h size m X k s hsize hh
  have hs := (supportedSize_iff size).mpr hsize
  obtain ⟨u, rs, hhash, hhost, hphase, hbits, hA⟩ :=
    runCommands_setmode_absorbN_final (s := takeCommand h s.pending s) m X hs (takeCommand_host h s.pending s)
  obtain ⟨t, hreads⟩ := runCommands_rdbytes (js := List.range (min k (size.toNat / 8))) hhost hphase (by
    intro j hj
    rw [hbits]
    exact lt_of_lt_of_le (List.mem_range.mp hj) (Nat.min_le_right _ _))
  refine ⟨t, ?_, by simp [digest]⟩
  rw [oneShotHash, runCommands_init hs hh, andThen_next, if_neg (by simp), hhash, andThen_next, digestReads, hreads, andThen_next,
    List.map_map, digest_take, ← hA]
  simp [Function.comp_def]

end Sys2Proof.Machine
end

section
/-! PROOF. The exceptions family: a failed command is `raise` of its error (R203), with the causes of CONFIG_ERROR (R200) and
USAGE_ERROR (R201) read off the inversion lemmas of Sys2Proof/Laws/Exec.lean. -/

namespace Sys2Proof.Machine

/-! ## A failed command (R203) -/

/-- A command that does not answer OK raised an error and did nothing else; only INIT's size is a CONFIG_ERROR (R200, R203). -/
theorem exec_eq_raise_of_failed {i : Instr} {s t : State} {r : Response} (h : exec i s = .next t) (hr : t.resp = some r)
    (hst : r.status ≠ .ok) :
    ∃ e : CommandError, r.status = e.status ∧ t = raise e s ∧
      (e = .configError → ∃ size, i = .init size ∧ supportedSize size = false) := by
  obtain ⟨e, rfl, hconfig, _⟩ | ⟨_, _, _, rfl⟩ | ⟨_, _, rfl⟩ | ⟨_, _, _, _, _, _, rfl⟩ | ⟨_, _, _, _, rfl⟩ |
    ⟨_, _, _, _, rfl⟩ | ⟨_, _, _, _, rfl⟩ := exec_shape i s t h <;> cases hr
  case inl => exact ⟨e, rfl, rfl, hconfig⟩
  all_goals exact absurd rfl hst

/-- `ERR` after a command, by the two statuses that set it (R31, R203). -/
theorem errAfter_eq_ite (st : Status) (e : BitVec 1) :
    errAfter st e = if st = .usageError ∨ st = .illegalCommand then 1#1 else e := by
  cases st <;> rfl

/-- Settles O37: a failed command is `raise` of its error, and `raise_eq` says what that writes. -/
theorem failedCommandWritesOnlyErr : Obligations.FailedCommandWritesOnlyErr := by
  intro i s t r h hr hst
  obtain ⟨hecho, herr⟩ := exec_err_of_status h hr
  obtain ⟨e, _, rfl, _⟩ := exec_eq_raise_of_failed h hr hst
  cases hr
  exact ⟨raise_eq e s, herr.trans (errAfter_eq_ite e.status s.err), hecho, rfl⟩

/-! ## USAGE_ERROR (R201) -/

/-- A well-formed command with a cause of USAGE_ERROR raises it: the phase refuses it, or a read's index is out of range. -/
theorem exec_of_usageForbidden {i : Instr} {s : State} (hw : i.wellFormed = true) (hu : usageForbidden i s) :
    exec i s = .next (raise .usageError s) := by
  cases ha : s.phase.accepts i with
  | false => exact exec_of_not_accepts hw ha
  | true =>
    obtain ⟨idx, ⟨rfl, hidx⟩ | ⟨rfl, hidx⟩⟩ := index_out_of_range_of_accepts ha hu
    · obtain ⟨_, he⟩ | ⟨_, hlt, _⟩ := exec_rdbyte_cases idx s
      · exact he
      · omega
    · obtain ⟨_, he⟩ | ⟨_, hlt, _⟩ := exec_rdlane_cases idx s
      · exact he
      · omega

/-- Settles O36: `exec_of_usageForbidden` one way, `usageForbidden_of_usageError` the other. -/
theorem usageErrorExactlyWhereForbidden : Obligations.UsageErrorExactlyWhereForbidden :=
  ⟨rfl, fun _ _ hw => ⟨exec_of_usageForbidden hw, fun _ _ => usageForbidden_of_usageError⟩⟩

/-! ## CONFIG_ERROR (R200) -/

/-- The sizes INIT refuses (R6, R130). -/
theorem supportedSize_eq_false_iff (size : BitVec 16) :
    supportedSize size = false ↔ ¬(size.toNat = 256 ∨ size.toNat = 384 ∨ size.toNat = 512) := by
  rw [← supportedSize_iff, Bool.not_eq_true]

/-- INIT with an unsupported size has one outcome (R130, R200). -/
theorem exec_init_unsupported {size : BitVec 16} (s : State) (h : supportedSize size = false) :
    exec (.init size) s = .next (raise .configError s) := by
  obtain ⟨hs, _⟩ | ⟨_, he⟩ := exec_init_cases size s
  · simp [h] at hs
  · exact he

/-- CONFIG_ERROR has one cause (R200). -/
theorem init_unsupported_of_configError {i : Instr} {s t : State} {r : Response} (h : exec i s = .next t)
    (hr : t.resp = some r) (hst : r.status = .configError) : ∃ size, i = .init size ∧ supportedSize size = false := by
  obtain ⟨e, he, _, hconfig⟩ := exec_eq_raise_of_failed h hr (by simp [hst])
  rw [hst] at he
  cases e with
  | configError => exact hconfig rfl
  | usageError => cases he
  | illegalCommand => cases he

/-- HASH with an unsupported size ends at its INIT (R82, R200). -/
theorem oneShotHash_unsupported {h : Nat} {size : BitVec 16} {s : State} (m : BitVec 1) (X : List Byte) (k : Nat)
    (hsize : supportedSize size = false) (hh : s.host = none ∨ s.host = some h) :
    oneShotHash h size m X k s = .next (raise .configError (takeCommand h s.pending s), .configError) := by
  have hinit : runCommands h [.init size] s =
      .next (raise .configError (takeCommand h s.pending s), [⟨.configError, s.err, 0⟩]) := by
    rw [runCommands, deliver_encode rfl hh, exec_init_unsupported _ hsize, andThen_next]
    rfl
  rw [oneShotHash, hinit, andThen_next, if_pos (by simp)]

/-- Settles O17: the outcome of INIT by its size, the one cause of CONFIG_ERROR, and HASH's INIT. -/
theorem unsupportedSizeIsConfigError : Obligations.UnsupportedSizeIsConfigError := by
  refine ⟨rfl, fun size s hsize => ?_, fun i s t r h hr hst => ?_, fun _ size' _ t _ hsize' => ?_,
    fun h size m X k s hsize hh => ?_⟩
  · exact exec_init_unsupported s ((supportedSize_eq_false_iff size).mpr hsize)
  · obtain ⟨size, hi, hsize⟩ := init_unsupported_of_configError h hr hst
    exact ⟨size, hi, (supportedSize_eq_false_iff size).mp hsize⟩
  · exact ⟨_, _, exec_init_supported t ((supportedSize_iff size').mpr hsize'), rfl, rfl⟩
  · exact ⟨_, oneShotHash_unsupported m X k ((supportedSize_eq_false_iff size).mpr hsize) hh⟩

end Sys2Proof.Machine
end

section
/-! PROOF. The other family: the decoder and the assembler against the encoder (R71, R80), the context invariant (R24 to R27), what a
step runs (R60), what ABSORB reads and writes (R140 to R145, R236), the digest reads (R165, R166), and the cores of a platform (R211). -/

namespace Sys2Proof.Machine

/-! ## Encoding, streaming and the whole hash -/

/-- Settles O11: the opcode selects the format, whose reserved bits are clear and whose field is the operand. -/
theorem encodedCommandsDecodeBack : Obligations.EncodedCommandsDecodeBack :=
  fun _ h => decode_encode h

/-- Absorption leaves a clean `saved` clean (R26). -/
theorem absorb_clean (X : List Byte) {s : State} (hc : s.SavedClean) : (absorb X s).SavedClean := by
  rw [byteSerialFormAgreesWithAbsorb X s hc]
  exact absorbSerial_clean X s hc

/-- Settles O22: in the byte-serial form a sequence can be taken apart, and the first part leaves `saved` clean for the second. -/
theorem streamingIsTransparent : Obligations.StreamingIsTransparent := by
  intro X Y s hc
  calc absorb Y (absorb X s)
      = absorbSerial Y (absorb X s) := byteSerialFormAgreesWithAbsorb Y _ (absorb_clean X hc)
    _ = absorbSerial Y (absorbSerial X s) := by rw [byteSerialFormAgreesWithAbsorb X s hc]
    _ = absorbSerial (X ++ Y) s := (absorbSerial_append X Y s).symm
    _ = absorb (X ++ Y) s := (byteSerialFormAgreesWithAbsorb _ s hc).symm

/-- Settles O49: INIT makes the fresh context, and `execAll_final_of_fresh` runs the rest from there. -/
theorem wholeHashIsTheSpongeOfItsInput : Obligations.WholeHashIsTheSpongeOfItsInput := by
  intro size p s hsize ha
  have hs := (supportedSize_iff size).mpr hsize
  obtain ⟨t, hrun, hrest⟩ := execAll_final_of_fresh s hs ha
  refine ⟨t, ?_, hrest⟩
  rw [List.cons_append, execAll, exec_init_supported s hs, andThen_next, hrun]

/-! ## The context invariant (R24 to R27, R232) -/

/-- Absorption keeps the invariant of a context. -/
theorem absorb_inv (X : List Byte) {s : State} (hp : s.phase = .absorbing) (hi : s.Inv) : (absorb X s).Inv := by
  obtain ⟨_, _, hclean⟩ := hi (by simp [hp])
  rw [byteSerialFormAgreesWithAbsorb X s hclean]
  exact absorbSerial_inv X hi

/-- Every command keeps the invariant: INIT makes it, ABSORB keeps it, FINAL only enters the next phase, and nothing else writes a
register that it reads. -/
theorem exec_inv {i : Instr} {s t : State} (hi : s.Inv) (h : exec i s = .next t) : t.Inv := by
  obtain ⟨e, rfl, _⟩ | ⟨size, _, hsize, rfl⟩ | ⟨m, _, rfl⟩ | ⟨len, data, _, _, hp, _, rfl⟩ | ⟨_, hp, _, _, rfl⟩ |
    ⟨idx, _, _, _, rfl⟩ | ⟨idx, _, _, _, rfl⟩ := exec_shape i s t h
  · exact hi
  · exact freshContext_inv s hsize
  · exact hi
  · exact absorb_inv _ hp hi
  · exact fun _ => hi (by simp [hp])
  · exact hi
  · exact hi

/-- Right after a reset there is no context (R35). -/
theorem inv_of_uninit {s : State} (h : s.phase = .uninit) : s.Inv := fun hp => absurd h hp

/-- Settles O44: case by case of the step, a command by `exec_inv`. -/
theorem stepKeepsTheContextInvariant : Obligations.StepKeepsTheContextInvariant := by
  intro s t hi hs
  obtain ⟨_, he⟩ | ⟨rest, _, he⟩ | ⟨h, c, rest, i, _, _, _, he⟩ | ⟨h, c, rest, why, _, _, _, he⟩ | ⟨h, _, _, _, _, he⟩ :=
    step_cases s <;> rw [he] at hs
  · rwa [← Host.Outcome.next.inj hs]
  · rw [← Host.Outcome.next.inj hs]
    exact inv_of_uninit (takeReset_phase rest s)
  · exact exec_inv (s := takeCommand h rest s) hi hs
  · rw [← Host.Outcome.next.inj hs]
    exact hi
  · cases hs

/-- Settles O42: a drawn state is in PHASE UNINIT. -/
theorem resetMeetsTheContextInvariant : Obligations.ResetMeetsTheContextInvariant :=
  fun n => ⟨inv_of_uninit (drawn_phase n), inv_of_uninit reset_phase⟩

/-- Settles O43: INIT answers OK only where it makes the fresh context. -/
theorem initEstablishesTheContextInvariant : Obligations.InitEstablishesTheContextInvariant := by
  intro size s t r h hr hst
  obtain ⟨hsize, he⟩ | ⟨_, he⟩ := exec_init_cases size s <;> rw [he] at h <;> cases h
  · exact ⟨rfl, freshContext_inv s hsize⟩
  · cases hr
    cases hst

/-! ## Where a command stops (log entry 5) -/

/-- A command answers a next state, or it is ABSORB or FINAL in PHASE ABSORBING and faults, since a lane of its own does not exist. -/
theorem exec_next_or_fault (i : Instr) (s : State) :
    (∃ t, exec i s = .next t) ∨
    (s.phase = .absorbing ∧ (25 ≤ s.wordIndex.toNat ∨ 25 ≤ s.capacityWords.toNat) ∧
      (i = .final ∨ ∃ len data, i = .absorb len data) ∧ ∃ f, exec i s = .fault f) := by
  cases i with
  | init size =>
    obtain ⟨_, he⟩ | ⟨_, he⟩ := exec_init_cases size s
    · exact .inl ⟨_, he⟩
    · exact .inl ⟨_, he⟩
  | setmode m => exact .inl ⟨_, exec_setmode m s⟩
  | absorb len data =>
    obtain ⟨_, he⟩ | ⟨_, _, he⟩ | ⟨_, hp, _, hw, he⟩ | ⟨_, _, _, he⟩ := exec_absorb_cases len data s
    · exact .inl ⟨_, he⟩
    · exact .inl ⟨_, he⟩
    · exact .inr ⟨hp, .inl hw, .inr ⟨len, data, rfl⟩, _, he⟩
    · exact .inl ⟨_, he⟩
  | final =>
    obtain ⟨_, he⟩ | ⟨hp, hw, he⟩ | ⟨hp, _, hc, he⟩ | ⟨_, _, _, he⟩ := exec_final_cases s
    · exact .inl ⟨_, he⟩
    · exact .inr ⟨hp, .inl hw, .inl rfl, _, he⟩
    · exact .inr ⟨hp, .inr hc, .inl rfl, _, he⟩
    · exact .inl ⟨_, he⟩
  | rdbyte idx =>
    obtain ⟨_, he⟩ | ⟨_, _, he⟩ := exec_rdbyte_cases idx s
    · exact .inl ⟨_, he⟩
    · exact .inl ⟨_, he⟩
  | rdlane idx =>
    obtain ⟨_, he⟩ | ⟨_, _, he⟩ := exec_rdlane_cases idx s
    · exact .inl ⟨_, he⟩
    · exact .inl ⟨_, he⟩

/-- In a context every lane that ABSORB and FINAL write exists (R25, R27). -/
theorem lanes_exist_of_inv {s : State} (hi : s.Inv) (hp : s.phase = .absorbing) :
    s.wordIndex.toNat < 25 ∧ s.capacityWords.toNat < 25 := by
  obtain ⟨_, hpos, _⟩ := hi (by simp [hp])
  rw [State.rateWords] at hpos
  omega

/-- So under the invariant every command completes. -/
theorem exec_next_of_inv (i : Instr) {s : State} (hi : s.Inv) : ∃ t, exec i s = .next t := by
  obtain hnext | ⟨hp, hlane, _⟩ := exec_next_or_fault i s
  · exact hnext
  · have := lanes_exist_of_inv hi hp
    omega

/-- Settles O7: `exec_next_or_fault`, and the invariant excludes the fault. -/
theorem meaningsFaultOnlyOutsideTheInvariant : Obligations.MeaningsFaultOnlyOutsideTheInvariant := by
  intro i s
  obtain ⟨t, he⟩ | ⟨hp, hlane, hcmd, f, he⟩ := exec_next_or_fault i s
  · simp [he]
  · refine ⟨fun _ _ => ⟨fun hi => ?_, hp, hcmd⟩, by simp [he]⟩
    have := lanes_exist_of_inv hi hp
    omega

/-- Settles O6: only a command could stop, and its host is the core's own. -/
theorem stepAlwaysCompletesUnderTheInvariant : Obligations.StepAlwaysCompletesUnderTheInvariant := by
  intro s hi hhost
  obtain ⟨_, he⟩ | ⟨rest, _, he⟩ | ⟨h, c, rest, i, _, _, _, he⟩ | ⟨h, c, rest, why, _, _, _, he⟩ | ⟨h, c, rest, hp, hn, _⟩ :=
    step_cases s
  · exact ⟨_, he⟩
  · exact ⟨_, he⟩
  · rw [he]
    exact exec_next_of_inv i (s := takeCommand h rest s) hi
  · exact ⟨_, he⟩
  · simp [(admitsHost_iff h s).mpr (hhost h c rest hp)] at hn

/-- Settles O8: the stops of `exec_absorb_cases` and `exec_final_cases`, each with its guard. -/
theorem missingLaneStopsAbsorbAndFinal : Obligations.MissingLaneStopsAbsorbAndFinal := by
  intro s len data hp
  refine ⟨fun hlen hcomplete hw => ?_, fun hw => ?_, fun hw hc => ?_⟩
  · obtain ⟨hn, _⟩ | ⟨_, hn, _⟩ | ⟨_, _, _, _, he⟩ | ⟨_, _, hn, _⟩ := exec_absorb_cases len data s
    · omega
    · exact absurd hp hn
    · exact he
    · have := hn hcomplete
      omega
  · obtain ⟨hn, _⟩ | ⟨_, _, he⟩ | ⟨_, hn, _⟩ | ⟨_, hn, _⟩ := exec_final_cases s
    · exact absurd hp hn
    · exact he
    · omega
    · omega
  · obtain ⟨hn, _⟩ | ⟨_, hn, _⟩ | ⟨_, _, _, he⟩ | ⟨_, _, hn, _⟩ := exec_final_cases s
    · exact absurd hp hn
    · omega
    · rw [he]
      congr 2
      omega
    · omega

end Sys2Proof.Machine

namespace Sys2Proof

/-! ## Encoding what was decoded (R71, R79) -/

/-- A word whose bits between its opcode and its operand's field and above the field are clear is the encoding of these two (R71). -/
theorem encodedWord_of_fields {cmd : BitVec 32} {op : Nat} (a n : Nat) (hop : (opcodeField cmd).toNat = op) (ha : 4 ≤ a)
    (hlow : cmd.extractLsb' 4 (a - 4) = 0#(a - 4)) (hhigh : cmd.extractLsb' (a + n) (32 - (a + n)) = 0#(32 - (a + n))) :
    (cmd.extractLsb' a n).zeroExtend 32 <<< a ||| BitVec.ofNat 32 op = cmd := by
  rw [extractLsb'_eq_zero_iff] at hlow hhigh
  rw [← hop, BitVec.ofNat_toNat]
  ext k hk
  rw [← BitVec.getLsbD_eq_getElem, ← BitVec.getLsbD_eq_getElem]
  by_cases h4 : k < 4
  · simp [opcodeField, hk, h4, show k < a by omega]
  by_cases hka : k < a
  · have hbit := hlow (k - 4) (by omega)
    rw [show 4 + (k - 4) = k by omega] at hbit
    simp [opcodeField, h4, hka, hbit]
  by_cases hkn : k < a + n
  · simp [opcodeField, hk, h4, hka, show k - a < n by omega, show a + (k - a) = k by omega]
  · have hbit := hhigh (k - (a + n)) (by omega)
    rw [show a + n + (k - (a + n)) = k by omega] at hbit
    simp [opcodeField, h4, hbit, show ¬ k - a < n by omega]

/-- The word of either read, from its opcode and its index (R71). -/
theorem encodedWord_of_formatX {cmd : BitVec 32} {op : Nat} (hop : (opcodeField cmd).toNat = op) (h : reservedClearX cmd = true) :
    (idxField cmd).zeroExtend 32 <<< 8 ||| BitVec.ofNat 32 op = cmd := by
  rw [reservedClearX, Bool.and_eq_true, beq_iff_eq, beq_iff_eq] at h
  exact encodedWord_of_fields 8 8 hop (by decide) h.2 h.1

/-- A decoded command is well-formed, and its encoding is the word, with ABSORB's data operand (R71, R79). -/
theorem encode_decode {cmd : BitVec 32} {data : BitVec 64} {i : Instr} (h : decode cmd data = .instr i) :
    i.wellFormed = true ∧ (encode i).cmd = cmd ∧ ∀ len d, i = .absorb len d → (encode i).data = data := by
  unfold decode at h
  split at h
  next hop =>
    split at h <;> cases h
    next hclear =>
      rw [reservedClearS, beq_iff_eq] at hclear
      exact ⟨rfl, encodedWord_of_fields 16 16 hop (by decide) hclear (BitVec.eq_nil _), nofun⟩
  next hop =>
    split at h <;> cases h
    next hclear =>
      rw [reservedClearM, Bool.and_eq_true, beq_iff_eq, beq_iff_eq] at hclear
      exact ⟨rfl, encodedWord_of_fields 16 1 hop (by decide) hclear.2 hclear.1, nofun⟩
  next hop =>
    split at h
    next hclear =>
      split at h <;> cases h
      next hlen =>
        rw [reservedClearL, beq_iff_eq] at hclear
        exact ⟨decide_eq_true hlen, encodedWord_of_fields 4 4 hop (by decide) (BitVec.eq_nil _) hclear, fun _ _ _ => rfl⟩
    next => cases h
  next hop =>
    split at h <;> cases h
    next hclear =>
      rw [reservedClearN, beq_iff_eq] at hclear
      have hword := encodedWord_of_fields 4 28 hop (by decide) (BitVec.eq_nil _) (BitVec.eq_nil _)
      rw [hclear] at hword
      exact ⟨rfl, hword, nofun⟩
  next hop =>
    split at h <;> cases h
    next hclear => exact ⟨rfl, encodedWord_of_formatX hop hclear, nofun⟩
  next hop =>
    split at h <;> cases h
    next hclear => exact ⟨rfl, encodedWord_of_formatX hop hclear, nofun⟩
  next => cases h

/-- Settles O12: opcode by opcode, the reserved bits are clear and the rest of the word is the opcode and the operand. -/
theorem decodedCommandsEncodeBack : Obligations.DecodedCommandsEncodeBack :=
  fun _ _ _ h => encode_decode h

/-- Settles O13: the decoder evaluates on each of the nine words. -/
theorem spelledWordsDecode : Obligations.SpelledWordsDecode := by
  unfold Obligations.SpelledWordsDecode
  decide

/-- The decoder hands the data operand to ABSORB alone (R72). -/
theorem decode_data_irrelevant {cmd : BitVec 32} (h : opcodeField cmd ≠ 3#4) (d d' : BitVec 64) :
    decode cmd d = decode cmd d' := by
  unfold decode
  split
  case h_3 hop => exact absurd (BitVec.eq_of_toNat_eq hop) h
  all_goals rfl

end Sys2Proof

namespace Sys2Proof.Machine

/-- Settles O14: the step reads the data operand only through the decoder, by `decode_data_irrelevant`. -/
theorem onlyAbsorbReadsTheDataOperand : Obligations.OnlyAbsorbReadsTheDataOperand := by
  intro s h cmd d d' rest hop
  simp only [step, decode_data_irrelevant hop d d']
  rfl

/-! ## The assembler (R80) -/

/-- The word an assembler line makes of an operand that fits its field is the encoded word (R80). -/
theorem asmWord_eq {x a n : Nat} (op : Nat) (hx : x < 2 ^ n) (hn : n ≤ 32) :
    BitVec.ofNat 32 (x <<< a ||| op) = (BitVec.ofNat n x).zeroExtend 32 <<< a ||| BitVec.ofNat 32 op := by
  have hfield : (BitVec.ofNat n x).zeroExtend 32 = BitVec.ofNat 32 x :=
    BitVec.setWidth_ofNat_of_le_of_lt hn hx
  have hshift : BitVec.ofNat 32 (x <<< a) = BitVec.ofNat 32 x <<< a :=
    BitVec.eq_of_toNat_eq (by simp [Nat.shiftLeft_eq])
  rw [hfield, BitVec.ofNat_or, hshift]

/-- A string of at most 8 bytes assembles to the ABSORB of its length that carries it (R80). -/
theorem assemble_absorbString {bytes : List Byte} (h : bytes.length ≤ 8) :
    assemble (.absorbString bytes) = some (encode (.absorb (BitVec.ofNat 4 bytes.length) (packLe bytes))) := by
  rw [assemble, if_pos h, encode, asmWord_eq 3 (show bytes.length < 2 ^ 4 by omega) (by decide)]

/-- Settles O15: each line's word by `asmWord_eq`, and the bytes of a string by `inputBytes_packLe`. -/
theorem assemblerLinesEncodeTheirCommands : Obligations.AssemblerLinesEncodeTheirCommands := by
  refine ⟨fun n (hn : n < 2 ^ 16) => ?_, rfl, rfl, fun len data (hlen : len < 2 ^ 4) => ?_, fun bytes hb => ?_, rfl,
    fun k (hk : k < 2 ^ 8) => ?_, fun k (hk : k < 2 ^ 8) => ?_⟩
  · rw [assemble, if_pos hn, encode, asmWord_eq 1 hn (by decide)]
  · rw [assemble, if_pos hlen, encode, asmWord_eq 3 hlen (by decide)]
  · have hlen : (BitVec.ofNat 4 bytes.length).toNat = bytes.length := by
      rw [BitVec.toNat_ofNat]
      omega
    exact ⟨_, _, assemble_absorbString hb, by rw [hlen, inputBytes_packLe _ hb], packLe_lt bytes⟩
  · rw [assemble, if_pos hk, encode, asmWord_eq 5 hk (by decide)]
  · rw [assemble, if_pos hk, encode, asmWord_eq 6 hk (by decide)]

/-! ## The step by what is pending (R60, R62, R70, R230) -/

/-- A command of the core's host that decodes is executed (R60, R70). -/
theorem step_instr {s : State} {h : Nat} {c : Command} {rest : List Input} {i : Instr}
    (hp : s.pending = .command h c :: rest) (hh : s.host = none ∨ s.host = some h) (hd : decode c.cmd c.data = .instr i) :
    step s = exec i (takeCommand h rest s) := by
  simp [step, hp, (admitsHost_iff h s).mpr hh, hd]

/-- A command of another host is refused (R62). -/
theorem step_secondHost {s : State} {h k : Nat} {c : Command} {rest : List Input}
    (hp : s.pending = .command h c :: rest) (hk : s.host = some k) (hne : k ≠ h) : step s = .refused (.secondHost h) := by
  have hn : admitsHost h s = false := by simp [admitsHost, hk, hne]
  simp [step, hp, hn]

/-- Settles O1: the reset takes the next draw, `step_reset`. -/
theorem resetLeavesUninitWithErrClear : Obligations.ResetLeavesUninitWithErrClear :=
  ⟨reset_phase, reset_err, fun s rest hp =>
    ⟨s.draws + 1, _, step_reset hp, takeReset_phase rest s, takeReset_err rest s, rfl⟩⟩

/-- Settles O2: `step_instr`, with the command taken written out. -/
theorem stepRunsTheDecodedCommand : Obligations.StepRunsTheDecodedCommand :=
  fun _ _ _ _ _ hp hh hd => step_instr hp hh hd

/-- Settles O3: `step_illegalWord`, with the error raised written out. -/
theorem illegalWordAnswersIllegalCommand : Obligations.IllegalWordAnswersIllegalCommand :=
  ⟨rfl, fun _ _ _ _ hp hh hw => (step_illegalWord hp hh hw).trans (congrArg _ (raise_eq _ _))⟩

/-- Settles O4: `step_idle`. -/
theorem idleCoreWaits : Obligations.IdleCoreWaits := fun _ hp => step_idle hp

/-- Settles O5: `step_secondHost`. -/
theorem secondHostIsRefusedByName : Obligations.SecondHostIsRefusedByName :=
  fun _ _ _ _ _ hp hk hne => step_secondHost hp hk hne

/-- Settles O18: the one outcome of SETMODE, written out. -/
theorem setmodeReturnsThePreviousMode : Obligations.SetmodeReturnsThePreviousMode := exec_setmode

/-! ## Several cores (R38, R211) -/

/-- A step of a core writes the state that its own step answers in its place, and nothing else; beyond the cores nothing happens. -/
theorem stepCore_cases {k : Nat} {p q : Platform} (h : Platform.stepCore k p = .next q) :
    (p.cores[k]? = none ∧ q = p) ∨
    ∃ s t, p.cores[k]? = some s ∧ step s = .next t ∧ q = ⟨p.cores.set k t⟩ := by
  unfold Platform.stepCore at h
  split at h
  next hk => exact .inl ⟨hk, (Host.Outcome.next.inj h).symm⟩
  next s hk =>
    split at h
    next t ht => exact .inr ⟨s, t, hk, ht, (Host.Outcome.next.inj h).symm⟩
    next => cases h
    next => cases h

/-- Settles O51: by `stepCore_cases` the list of cores is as before but for place `k`. -/
theorem coresShareNoState : Obligations.CoresShareNoState := by
  intro k p q h
  obtain ⟨hk, rfl⟩ | ⟨s, t, hk, ht, rfl⟩ := stepCore_cases h
  · exact ⟨rfl, fun _ _ => rfl, fun s hs => by simp [hk] at hs⟩
  · have hlt : k < p.cores.length := (List.getElem?_eq_some_iff.mp hk).1
    refine ⟨List.length_set, fun j hj => List.getElem?_set_ne hj.symm, fun s' hs' => ?_⟩
    rw [hk, Option.some.injEq] at hs'
    exact ⟨t, hs' ▸ ht, List.getElem?_set_self hlt⟩

/-! ## Reading the digest (R165, R166) -/

/-- RDBYTE of a digest byte (R165). -/
theorem exec_rdbyte_of_lt {idx : BitVec 8} {s : State} (hp : s.phase = .finalized) (h : idx.toNat < s.outputBits / 8) :
    exec (.rdbyte idx) s = .next (respond .ok (zextByte (stateByte s.A idx.toNat)) s) := by
  obtain ⟨hn | hn, _⟩ | ⟨_, _, he⟩ := exec_rdbyte_cases idx s
  · exact absurd hp hn
  · omega
  · exact he

/-- RDLANE of a digest lane (R166). -/
theorem exec_rdlane_of_lt {idx : BitVec 8} {s : State} (hp : s.phase = .finalized) (h : idx.toNat < s.outputBits / 64) :
    exec (.rdlane idx) s = .next (respond .ok (lane s.A idx.toNat) s) := by
  obtain ⟨hn | hn, _⟩ | ⟨_, _, he⟩ := exec_rdlane_cases idx s
  · exact absurd hp hn
  · omega
  · exact he

/-- Settles O32: `exec_rdbyte_of_lt`, with the byte written out. -/
theorem rdbyteReturnsTheDigestByte : Obligations.RdbyteReturnsTheDigestByte :=
  fun _ _ hp h => exec_rdbyte_of_lt hp h

/-- Settles O33: `exec_rdlane_of_lt`. -/
theorem rdlaneReturnsTheDigestLane : Obligations.RdlaneReturnsTheDigestLane :=
  fun _ _ hp h => exec_rdlane_of_lt hp h

/-- Byte `j` of lane `i` is byte `8i + j` of the state (R50). -/
theorem stateByte_lane (A : Lanes) (i : Nat) {j : Nat} (hj : j < 8) : stateByte A (8 * i + j) = byteOf (lane A i) j := by
  rw [stateByte, show (8 * i + j) / 8 = i by omega, show (8 * i + j) % 8 = j by omega]

/-- Settles O34: the byte's index is in range with the lane's, and `stateByte_lane` compares the two reads. -/
theorem rdlaneBytesAreTheRdbyteBytes : Obligations.RdlaneBytesAreTheRdbyteBytes := by
  intro idx j s hp hidx hj
  have hcap := s.capacityWords.isLt
  have hbits : s.outputBits = 32 * s.capacityWords.toNat := rfl
  have hbyte : (BitVec.ofNat 8 (8 * idx.toNat + j)).toNat = 8 * idx.toNat + j := by
    rw [BitVec.toNat_ofNat]
    omega
  refine ⟨_, _, _, _, exec_rdlane_of_lt hp hidx, rfl, rfl, exec_rdbyte_of_lt hp (by omega), rfl, rfl, ?_⟩
  rw [hbyte, stateByte_lane s.A _ hj]
  rfl

/-- Settles O35: a refused read is refused again with the same error, and a read that answers leaves what it reads. -/
theorem readsAreIdempotent : Obligations.ReadsAreIdempotent := by
  refine fun idx s t => ⟨fun h => ?_, fun h => ?_⟩
  · obtain ⟨hu, he⟩ | ⟨hp, hlt, he⟩ := exec_rdbyte_cases idx s <;> rw [he] at h <;> cases h
    · exact exec_of_usageForbidden (s := raise .usageError s) rfl hu
    · exact exec_rdbyte_of_lt (s := respond _ _ s) hp hlt
  · obtain ⟨hu, he⟩ | ⟨hp, hlt, he⟩ := exec_rdlane_cases idx s <;> rw [he] at h <;> cases h
    · exact exec_of_usageForbidden (s := raise .usageError s) rfl hu
    · exact exec_rdlane_of_lt (s := respond _ _ s) hp hlt

/-! ## ABSORB does not read `MODE` or `ERR` (R28, R31, R236) -/

/-- An ABSORB with a length above 8, which the decoder never makes, is an ILLEGAL_COMMAND (R79, R205). -/
theorem exec_of_not_wellFormed {i : Instr} (h : i.wellFormed = false) (s : State) :
    exec i s = .next (raise .illegalCommand s) := by
  cases i with
  | absorb len data => exact if_pos (Nat.not_le.mp (of_decide_eq_false h))
  | init size => cases h
  | setmode m => cases h
  | final => cases h
  | rdbyte idx => cases h
  | rdlane idx => cases h

/-- ABSORB in PHASE ABSORBING, where the lane that it may complete exists (R145). -/
theorem exec_absorb_of_lane {len : BitVec 4} {s : State} (data : BitVec 64) (hlen : len.toNat ≤ 8) (hp : s.phase = .absorbing)
    (hw : 8 ≤ s.byteIndex.toNat + len.toNat → s.wordIndex.toNat < 25) :
    exec (.absorb len data) s = .next (respond .ok 0 (absorb (inputBytes len.toNat data) s)) := by
  obtain ⟨hn, _⟩ | ⟨_, hn, _⟩ | ⟨_, _, hn, hn', _⟩ | ⟨_, _, _, he⟩ := exec_absorb_cases len data s
  · omega
  · exact absurd hp hn
  · have := hw hn
    omega
  · exact he

/-- The state with `MODE` and `ERR` changed. -/
def mapModeErr (f g : BitVec 1 → BitVec 1) (s : State) : State := { s with mode := f s.mode, err := g s.err }

/-- The advance reads neither (R142). -/
theorem advance_mapModeErr (f g : BitVec 1 → BitVec 1) (s : State) : advance (mapModeErr f g s) = mapModeErr f g (advance s) := by
  by_cases hx : s.wordIndex.toNat + 1 = s.rateWords
  · rw [advance_boundary hx, advance_boundary (s := mapModeErr f g s) hx]
    rfl
  · rw [advance_within hx, advance_within (s := mapModeErr f g s) hx]
    rfl

/-- Buffering reads neither (R141). -/
theorem bufferBytes_mapModeErr (f g : BitVec 1 → BitVec 1) (X : List Byte) (s : State) :
    bufferBytes X (mapModeErr f g s) = mapModeErr f g (bufferBytes X s) := by
  induction X generalizing s with
  | nil => rfl
  | cons b bs ih => exact ih (bufferByte b s)

/-- Whole words and the bytes left over are absorbed without reading either (R141 steps 3 and 4). -/
theorem absorbWords_mapModeErr (f g : BitVec 1 → BitVec 1) (k : Nat) (X : List Byte) (s : State) :
    absorbWords k X (mapModeErr f g s) = mapModeErr f g (absorbWords k X s) := by
  induction k generalizing X s with
  | zero => exact bufferBytes_mapModeErr f g X s
  | succ k ih =>
    have hword : absorbWord (packLe (X.take 8)) (mapModeErr f g s) = mapModeErr f g (absorbWord (packLe (X.take 8)) s) :=
      advance_mapModeErr f g (xorLane s.wordIndex.toNat (packLe (X.take 8)) s)
    rw [absorbWords, hword, ih, absorbWords]

/-- Completing the word in flight reads neither (R141 step 2). -/
theorem completeWord_mapModeErr (f g : BitVec 1 → BitVec 1) (s : State) :
    completeWord (mapModeErr f g s) = mapModeErr f g (completeWord s) :=
  advance_mapModeErr f g (clearBuffer (xorLane s.wordIndex.toNat s.saved s))

/-- Absorption reads neither, in every state (R28, R31, R141). -/
theorem absorb_mapModeErr (f g : BitVec 1 → BitVec 1) (X : List Byte) (s : State) :
    absorb X (mapModeErr f g s) = mapModeErr f g (absorb X s) := by
  by_cases hb : s.byteIndex = 0
  · rw [absorb_of_empty X hb, absorb_of_empty (s := mapModeErr f g s) X hb, absorbWords_mapModeErr]
  by_cases hshort : X.length < need s
  · rw [absorb_short hshort, absorb_short (s := mapModeErr f g s) hshort, bufferBytes_mapModeErr]
  · rw [absorb_completing hb (Nat.not_lt.mp hshort), absorb_completing (s := mapModeErr f g s) hb (Nat.not_lt.mp hshort),
      ← absorbWords_mapModeErr, ← completeWord_mapModeErr, ← bufferBytes_mapModeErr]
    rfl

/-- Settles O20: the guards of ABSORB do not read `MODE`, nor does absorption. -/
theorem absorbDoesNotReadTheMode : Obligations.AbsorbDoesNotReadTheMode := by
  intro len data m s t h
  obtain ⟨hlen, he⟩ | ⟨hlen, hp, he⟩ | ⟨_, _, _, _, he⟩ | ⟨hlen, hp, hw, he⟩ := exec_absorb_cases len data s <;>
    rw [he] at h <;> cases h
  · exact ⟨rfl, exec_of_not_wellFormed (i := .absorb len data) (decide_eq_false (Nat.not_le.mpr hlen)) _⟩
  · exact ⟨rfl, exec_of_not_accepts (decide_eq_true hlen) (by simp [hp])⟩
  · have hmode := exec_absorb_of_lane (s := mapModeErr (fun _ => m) id s) data hlen hp hw
    rw [absorb_mapModeErr] at hmode
    exact ⟨(absorb_bufferOnly _ s).mode, hmode⟩

/-- The causes of USAGE_ERROR do not read `ERR` (R201, R208). -/
theorem usageForbidden_withErr (i : Instr) (e : BitVec 1) (s : State) :
    usageForbidden i { s with err := e } ↔ usageForbidden i s := by
  cases i <;> rfl

/-- Settles O39: the guards of a command do not read `ERR`, nor does what it does where it is accepted. -/
theorem errDoesNotStopCommands : Obligations.ErrDoesNotStopCommands := by
  intro i e s t r h hr
  cases hw : i.wellFormed with
  | false =>
    rw [exec_of_not_wellFormed hw] at h
    cases h
    cases hr
    exact ⟨_, _, exec_of_not_wellFormed hw _, rfl, rfl, rfl, rfl⟩
  | true =>
    obtain ⟨ce, rfl, hconfig, husage, hillegal⟩ | ⟨size, rfl, hsize, rfl⟩ | ⟨m, rfl, rfl⟩ | ⟨len, data, rfl, hlen, hp, hl, rfl⟩ |
      ⟨rfl, hp, hl, hc, rfl⟩ | ⟨idx, rfl, hp, hidx, rfl⟩ | ⟨idx, rfl, hp, hidx, rfl⟩ := exec_shape i s t h <;> cases hr
    · cases ce with
      | configError =>
        obtain ⟨size, rfl, hsize⟩ := hconfig rfl
        exact ⟨_, _, exec_init_unsupported _ hsize, rfl, rfl, rfl, rfl⟩
      | usageError =>
        have hu := (usageForbidden_withErr i e s).mpr (husage rfl)
        exact ⟨_, _, exec_of_usageForbidden hw hu, rfl, rfl, rfl, rfl⟩
      | illegalCommand => simp [hw] at hillegal
    · exact ⟨_, _, exec_init_supported _ hsize, rfl, rfl, rfl, rfl⟩
    · exact ⟨_, _, exec_setmode m _, rfl, rfl, rfl, rfl⟩
    · have herr : absorb (inputBytes len.toNat data) { s with err := e } = _ :=
        absorb_mapModeErr id (fun _ => e) (inputBytes len.toNat data) s
      refine ⟨_, _, exec_absorb_of_lane data hlen hp hl, rfl, rfl, rfl, ?_⟩
      rw [herr]
      rfl
    · exact ⟨_, _, exec_final_of_lanes hp hl hc, rfl, rfl, rfl, rfl⟩
    · exact ⟨_, _, exec_rdbyte_of_lt hp hidx, rfl, rfl, rfl, rfl⟩
    · exact ⟨_, _, exec_rdlane_of_lt hp hidx, rfl, rfl, rfl, rfl⟩

/-! ## The commands between INIT and FINAL as one absorption (R60, R81, R144) -/

/-- SETMODEs and ABSORBs that leave `MODE` absorb their input bytes at once; only the response tells them apart. -/
theorem execAll_absorb {p : List Instr} {s : State} (ha : ∀ i ∈ p, absorbOrSetmode i = true)
    (hm : p.foldl modeAfter s.mode = s.mode) (hp : s.phase = .absorbing) (hi : s.Inv) :
    ∃ t, execAll p s = .next t ∧ t = { absorb (p.flatMap inputOf) s with resp := t.resp } := by
  obtain ⟨_, _, hclean⟩ := hi (by simp [hp])
  obtain ⟨r, he⟩ := execAll_absorbOrSetmode ha hp hi
  rw [hm, ← byteSerialFormAgreesWithAbsorb _ s hclean, ← (absorb_bufferOnly (p.flatMap inputOf) s).mode] at he
  exact ⟨_, he, rfl⟩

/-- Settles O23: ABSORB commands leave `MODE`, and their input bytes are those the statement concatenates. -/
theorem absorbCommandsFollowTheConcatenation : Obligations.AbsorbCommandsFollowTheConcatenation := by
  intro cs s hp hi hlen
  have ha : ∀ i ∈ cs.map fun c => Instr.absorb c.1 c.2, absorbOrSetmode i = true := by
    intro i hmem
    obtain ⟨c, hc, rfl⟩ := List.mem_map.mp hmem
    exact decide_eq_true (hlen c hc)
  have hm : (cs.map fun c => Instr.absorb c.1 c.2).foldl modeAfter s.mode = s.mode := by
    simp [List.foldl_map, modeAfter]
  have hall := execAll_absorb ha hm hp hi
  rwa [List.flatMap_map] at hall

/-- Settles O24: ABSORBN is such a sequence, and its input bytes are the whole sequence. -/
theorem absorbnAbsorbsTheWholeSequence : Obligations.AbsorbnAbsorbsTheWholeSequence := by
  intro X s hp hi
  have hall := execAll_absorb (absorbN_absorbOrSetmode X) (absorbN_foldl_modeAfter X s.mode) hp hi
  rwa [absorbN_flatMap_inputOf] at hall

/-! ## One ABSORB: the word that stays in flight (R141 step 1, R145) -/

/-- Bytes that do not complete the word are buffered, in every state (R141). -/
theorem absorb_eq_bufferBytes {X : List Byte} {s : State} (h : s.byteIndex.toNat + X.length < 8) :
    absorb X s = bufferBytes X s := by
  by_cases hb : s.byteIndex = 0
  · rw [absorb_of_empty X hb, Nat.div_eq_of_lt (by omega), absorbWords]
  · have := byteIndex_add_need hb
    exact absorb_short (by omega)

/-- Settles O25: the bytes are buffered, and `bufferBytes_eq` says where they stand. -/
theorem shortAbsorbIsBuffered : Obligations.ShortAbsorbIsBuffered := by
  intro len data s hp h
  have hcount : s.byteIndex + BitVec.ofNat 3 len.toNat = BitVec.ofNat 3 (s.byteIndex.toNat + len.toNat) := by
    rw [BitVec.ofNat_add, BitVec.ofNat_toNat, BitVec.ofNat_toNat, BitVec.setWidth_eq]
  have hlen : s.byteIndex.toNat + (inputBytes len.toNat data).length < 8 := by rwa [length_inputBytes]
  rw [exec_absorb_of_lane data (by omega) hp (by omega), absorb_eq_bufferBytes hlen, bufferBytes_eq _ s hlen.le,
    packLe_inputBytes, length_inputBytes, hcount]
  rfl

/-! ## One ABSORB: the word that it completes (R140 to R142) -/

/-- The advance, register by register (R142). -/
theorem advance_eq (s : State) :
    advance s = { s with
      A := if s.wordIndex.toNat + 1 = s.rateWords then keccakF s.A else s.A
      wordIndex := if s.wordIndex.toNat + 1 = s.rateWords then 0 else s.wordIndex + 1 } := by
  by_cases h : s.wordIndex.toNat + 1 = s.rateWords
  · rw [advance_boundary h, if_pos h, if_pos h]
    rfl
  · rw [advance_within h, if_neg h, if_neg h]
    rfl

/-- Bytes past the end of the word are shifted out of it (R141 step 2). -/
theorem packLe_take_shiftLeft (X : List Byte) {n b : Nat} (h : 8 ≤ b + n) :
    packLe (X.take n) <<< (8 * b) = packLe X <<< (8 * b) := by
  ext k hk
  rw [← BitVec.getLsbD_eq_getElem, ← BitVec.getLsbD_eq_getElem, BitVec.getLsbD_shiftLeft, BitVec.getLsbD_shiftLeft]
  by_cases hlow : k < 8 * b
  · simp [hlow]
  · have hbyte : (X.take n).getD ((k - 8 * b) / 8) 0 = X.getD ((k - 8 * b) / 8) 0 := by
      simp only [List.getD_eq_getElem?_getD, List.getElem?_take, show (k - 8 * b) / 8 < n by omega, if_true]
    rw [getLsbD_packLe _ (by omega), getLsbD_packLe _ (by omega), hbyte]

/-- The word in flight with more bytes ORed in above those it holds (R141). -/
def wordWith (X : List Byte) (s : State) : Lane := s.saved ||| packLe X <<< (8 * s.byteIndex.toNat)

/-- The lanes with the word that `X` completes XORed into lane `wordIndex` (R140). -/
def xoredLanes (X : List Byte) (s : State) : Lanes := (xorLane s.wordIndex.toNat (wordWith X s) s).A

/-- Lane by lane, only lane `wordIndex` is written (R140). -/
theorem lane_xoredLanes (X : List Byte) (s : State) {i : Nat} (hi : i < 25) :
    lane (xoredLanes X s) i = if i = s.wordIndex.toNat then lane s.A i ^^^ wordWith X s else lane s.A i := by
  rw [xoredLanes, xorLane_A, lane_setLane _ _ _ _ hi]
  by_cases h : s.wordIndex.toNat = i
  · rw [if_pos h, if_pos h.symm, h]
  · rw [if_neg h, if_neg (Ne.symm h)]

/-- Completing the word with the first bytes of `X` puts all of it that fits into the lane (R141 step 2). -/
theorem completeWord_bufferBytes_take (X : List Byte) {n : Nat} {s : State} (h : s.byteIndex.toNat + n = 8) :
    completeWord (bufferBytes (X.take n) s) = advance { s with A := xoredLanes X s, saved := 0, byteIndex := 0 } := by
  have hshort : s.byteIndex.toNat + (X.take n).length ≤ 8 := by
    have := List.length_take_le n X
    omega
  rw [bufferBytes_eq _ s hshort, packLe_take_shiftLeft X h.ge]
  rfl

/-- Absorbing up to a word's length that completes the word in flight: the word goes into its lane, and the bytes left over are in
the buffer (R141). -/
theorem absorb_completing_eq {X : List Byte} {s : State} (hc : s.SavedClean) (hlen : X.length ≤ 8)
    (h : 8 ≤ s.byteIndex.toNat + X.length) :
    absorb X s =
      { advance { s with A := xoredLanes X s, saved := 0, byteIndex := 0 } with
        saved := packLe X >>> (8 * (8 - s.byteIndex.toNat))
        byteIndex := BitVec.ofNat 3 (s.byteIndex.toNat + X.length - 8) } := by
  have hb := s.byteIndex.isLt
  have hfull : s.byteIndex.toNat + (X.take (8 - s.byteIndex.toNat)).length = 8 := by
    rw [List.length_take]
    omega
  have hrest : (X.drop (8 - s.byteIndex.toNat)).length = s.byteIndex.toNat + X.length - 8 := by
    rw [List.length_drop]
    omega
  have hshort : (advance { s with A := xoredLanes X s, saved := 0, byteIndex := 0 }).byteIndex.toNat +
      (X.drop (8 - s.byteIndex.toNat)).length < 8 := by
    rw [advance_byteIndex, hrest]
    change 0 + (s.byteIndex.toNat + X.length - 8) < 8
    omega
  calc absorb X s
      = absorbSerial (X.take (8 - s.byteIndex.toNat) ++ X.drop (8 - s.byteIndex.toNat)) s := by
        rw [List.take_append_drop, byteSerialFormAgreesWithAbsorb X s hc]
    _ = bufferBytes (X.drop (8 - s.byteIndex.toNat)) (advance { s with A := xoredLanes X s, saved := 0, byteIndex := 0 }) := by
        rw [absorbSerial_append, absorbSerial_complete _ s hfull, completeWord_bufferBytes_take X (by omega),
          absorbSerial_short _ _ hshort]
    _ = _ := by
        rw [bufferBytes_eq _ _ hshort.le, hrest, packLe_drop X _ hlen]
        simp

/-- Settles O26: `absorb_completing_eq`, with the advance register by register and the word as the operand's bits. -/
theorem completingAbsorbXorsItsLane : Obligations.CompletingAbsorbXorsItsLane := by
  intro len data s hp hi hlen h
  obtain ⟨_, _, hclean⟩ := hi (by simp [hp])
  obtain ⟨hw, _⟩ := lanes_exist_of_inv hi hp
  refine ⟨xoredLanes (inputBytes len.toNat data) s, fun i hi => ?_, ?_⟩
  · rw [lane_xoredLanes _ s hi, wordWith, packLe_inputBytes]
  · rw [exec_absorb_of_lane data hlen hp (fun _ => hw), absorb_completing_eq hclean (by simpa using hlen) (by simpa using h),
      advance_eq, packLe_inputBytes, length_inputBytes]
    rfl

/-! ## What ABSORB reads of its operand, and what it leaves (R22, R55) -/

/-- The input bytes are the operand below bit `8 * len` (R55). -/
theorem inputBytes_congr {len : Nat} {d d' : BitVec 64} (h : ∀ i, i < 8 * len → d.getLsbD i = d'.getLsbD i) :
    inputBytes len d = inputBytes len d' := by
  refine List.map_congr_left fun j hj => ?_
  have hlt := List.mem_range.mp hj
  ext k hk
  rw [← BitVec.getLsbD_eq_getElem, ← BitVec.getLsbD_eq_getElem, getLsbD_byteOf _ _ hk, getLsbD_byteOf _ _ hk, h _ (by omega)]

/-- Settles O27: ABSORB reads its operand through `inputBytes` alone. -/
theorem absorbIgnoresDataAboveItsLength : Obligations.AbsorbIgnoresDataAboveItsLength := by
  intro len d d' s h
  simp only [exec, execAbsorb, inputBytes_congr h]

/-- Whatever the state, absorbing up to a word's length that completes the word in flight XORs one word into lane `wordIndex` and
advances (R140, R141). -/
theorem absorb_completing_lanes {X : List Byte} {s : State} (hlen : X.length ≤ 8) (h : 8 ≤ s.byteIndex.toNat + X.length) :
    ∃ w, (absorb X s).A = (advance (xorLane s.wordIndex.toNat w s)).A := by
  by_cases hb : s.byteIndex = 0
  · have hzero : s.byteIndex.toNat = 0 := by rw [hb]; rfl
    have hone : X.length / 8 = 1 := by omega
    refine ⟨packLe (X.take 8), ?_⟩
    rw [absorb_of_empty X hb, hone, absorbWords, absorbWords, bufferBytes_A, absorbWord]
  · have hneed := byteIndex_add_need hb
    have hrest : (X.drop (need s)).length / 8 = 0 := by
      rw [List.length_drop]
      omega
    refine ⟨wordWith X s, ?_⟩
    rw [absorb_completing hb (by omega), hrest, absorbWords, bufferBytes_A, completeWord_bufferBytes_take X hneed, advance_eq,
      advance_eq]
    rfl

/-- Within a block, absorbing up to a word's length writes at most lane `wordIndex`, and that only with a completed word. -/
theorem lane_absorb_of_frame {X : List Byte} {s : State} {i : Nat} (hlen : X.length ≤ 8)
    (hblock : ¬(8 ≤ s.byteIndex.toNat + X.length ∧ s.wordIndex.toNat + 1 = s.rateWords)) (hi : i < 25)
    (hother : i ≠ s.wordIndex.toNat ∨ s.byteIndex.toNat + X.length < 8) : lane (absorb X s).A i = lane s.A i := by
  by_cases hshort : s.byteIndex.toNat + X.length < 8
  · rw [absorb_eq_bufferBytes hshort, bufferBytes_A]
  · obtain ⟨w, hA⟩ := absorb_completing_lanes hlen (Nat.not_lt.mp hshort)
    have hwithin : s.wordIndex.toNat + 1 ≠ s.rateWords := fun hend => hblock ⟨Nat.not_lt.mp hshort, hend⟩
    rw [hA, advance_within (s := xorLane s.wordIndex.toNat w s) hwithin, setWordIndex_A, xorLane_A,
      lane_setLane_ne _ _ hi (hother.resolve_right hshort).symm]

/-- Settles O28: an error leaves everything it names, and absorption has its frame by `absorb_bufferOnly` and `lane_absorb_of_frame`. -/
theorem absorbFrame : Obligations.AbsorbFrame := by
  intro len data s t h
  obtain ⟨hlen, he⟩ | ⟨_, hp, he⟩ | ⟨_, _, _, _, he⟩ | ⟨hlen, hp, _, he⟩ := exec_absorb_cases len data s <;>
    rw [he] at h <;> cases h
  · exact ⟨rfl, rfl, rfl, rfl, rfl, rfl, fun hn => by omega, fun _ _ _ _ => rfl⟩
  · exact ⟨rfl, rfl, rfl, rfl, rfl, rfl, fun _ hn => absurd hn hp, fun _ _ _ _ => rfl⟩
  · obtain ⟨hcap, hmode, hphase, herr, _, hpend, hhost, hdraws⟩ := absorb_bufferOnly (inputBytes len.toNat data) s
    refine ⟨hmode, hcap, hphase, hpend, hhost, hdraws, fun _ _ => herr, fun hblock k hk hother => stateByte_congr ?_⟩
    have hbytes : (inputBytes len.toNat data).length = len.toNat := length_inputBytes ..
    exact lane_absorb_of_frame (by rwa [hbytes]) (by rwa [hbytes]) (by omega) (by rwa [hbytes])

/-! ## Absorption into the fresh context (R25, R51) -/

/-- What INIT with a supported size answers (R130). -/
theorem eq_freshContext_of_init {size : BitVec 16} {s t : State} (hsize : size.toNat = 256 ∨ size.toNat = 384 ∨ size.toNat = 512)
    (h : exec (.init size) s = .next t) : t = respond .ok 0 (freshContext size s) := by
  rw [exec_init_supported s ((supportedSize_iff size).mpr hsize)] at h
  exact (Host.Outcome.next.inj h).symm

/-- A fresh context has lanes to absorb into (R27). -/
theorem rateWords_freshContext_pos {size : BitVec 16} (s : State) (hsize : size.toNat = 256 ∨ size.toNat = 384 ∨ size.toNat = 512) :
    0 < (respond .ok 0 (freshContext size s)).rateWords := by
  have hrate : (respond .ok 0 (freshContext size s)).rateWords = 25 - size.toNat / 32 :=
    rateWords_freshContext s ((supportedSize_iff size).mpr hsize)
  omega

/-- Settles O29: `absorbSerial_fresh` gives both positions, and both fit their registers. -/
theorem absorbPositionCountsTheBytes : Obligations.AbsorbPositionCountsTheBytes := by
  intro size X s t hsize h
  obtain rfl := eq_freshContext_of_init hsize h
  have hpos := rateWords_freshContext_pos s hsize
  have hrate : (respond .ok 0 (freshContext size s)).rateWords ≤ 25 := Nat.sub_le _ _
  have hword := Nat.mod_lt (X.length / 8) hpos
  rw [byteSerialFormAgreesWithAbsorb X _ (by simp [State.SavedClean]), absorbSerial_fresh X _ rfl rfl rfl hpos]
  exact ⟨by simp, toNat_ofNat5 (by omega)⟩

/-- A byte of a block XORed into the all-zero state is the block's byte (R50, R51). -/
theorem stateByte_xorBlock_zero (B : List Byte) {k : Nat} (hk : k < 200) :
    stateByte (xorBlock (Vector.replicate 25 0) B) k = B.getD k 0 := by
  have hzero : lane (Vector.replicate 25 0) (k / 8) = 0#64 := lane_replicate_zero _
  rw [stateByte, lane_xorBlock _ _ (by omega), hzero, BitVec.zero_xor, byteOf_packLe _ (by omega),
    getD_chunk _ _ _ (by omega), show 8 * (k / 8) + k % 8 = k by omega]

/-- Settles O30: `absorbSerial_within` gives the lanes and `saved`, each read byte by byte. -/
theorem inputBytesLandLittleEndian : Obligations.InputBytesLandLittleEndian := by
  intro size X s t hsize h hX
  obtain rfl := eq_freshContext_of_init hsize h
  rw [byteSerialFormAgreesWithAbsorb X _ (by simp [State.SavedClean]), absorbSerial_within X _ rfl rfl rfl hX]
  refine ⟨fun k hk => ?_, fun j hj => ?_⟩
  · refine (stateByte_xorBlock_zero _ hk).trans ?_
    rw [List.getD_eq_getElem?_getD, List.getElem?_take, List.getD_eq_getElem?_getD]
    split <;> rfl
  · refine (byteOf_packLe _ hj).trans ?_
    rw [List.getD_eq_getElem?_getD, List.getElem?_drop, List.getD_eq_getElem?_getD]

end Sys2Proof.Machine
end
